-- ==== Sys2Proof/Word.lean ====
section
/-! DEFINITION. The word types of the machine (spec/00_scope.md R4, R5): bytes, 16-bit words, and the two
immediate fields of an instruction word. All values are unsigned; `u8` and `u16` are the wrapping of `BitVec`. -/

namespace Sys2Proof

/-- An 8-bit value: a general register, a timer, a memory byte (R4, `XLEN`). -/
abbrev Byte := BitVec 8

/-- A 16-bit value: an instruction word, `PC`, `I`, a stack entry (R4). -/
abbrev Word := BitVec 16

/-- The 4-bit field `n` of a word (R71). -/
abbrev Nibble := BitVec 4

/-- The 12-bit field `nnn` of a word (R71). -/
abbrev Addr12 := BitVec 12

end Sys2Proof
end

