-- ==== Sys2Proof/Config.lean ====
section
/-! DEFINITION. What is fixed for the machine (the parameters of spec/00_scope.md R4) and the free values of
what the spec leaves open. A free value has no body: nothing can be proved of its value. -/

namespace Sys2Proof

/-- `MEM_SIZE`: 4096 bytes, addresses 0x000 to 0xFFF (R4). -/
def Config.memSize : Nat := 0x1000

/-- `PROG_BASE`: where the image is loaded and where `PC` starts (R4). -/
def Config.progBase : Nat := 0x200

/-- `PROG_MAX`: the longest image that loads, in bytes (R4). -/
def Config.progMax : Nat := 3584

/-- `STACK_DEPTH` (R4, spec/90_conflicts.md C1). -/
def Config.stackDepth : Nat := 16

/-- FREE VALUE: the byte `draw8()` gives at the `n`-th draw of RND (R10, spec/40_arithmetic_and_moves.md R109,
decision D23; log 4). -/
opaque Config.drawByte : Nat → Byte

/-- FREE VALUE: how a listing writes an address that three hexadecimal digits cannot hold; R214 fixes three
digits and the sweep has no length limit (spec/50_disassembler.md R211, R214; log 12). -/
opaque Config.wideAddressText : Nat → List Char

end Sys2Proof
end

