-- ==== Sys2Proof/Machine/Font.lean ====
section
/-! DEFINITION. The font table `FONT` (spec/10_state.md R35): a configuration table with the default the spec
gives. No instruction rule depends on its values. -/

namespace Sys2Proof.Machine

/-- `FONT`: glyph `d` at bytes `5*d` to `5*d + 4`, top row first (R35). -/
def fontTable : List Byte :=
  [ 0xF0#8, 0x90#8, 0x90#8, 0x90#8, 0xF0#8,   -- 0
    0x20#8, 0x60#8, 0x20#8, 0x20#8, 0x70#8,   -- 1
    0xF0#8, 0x10#8, 0xF0#8, 0x80#8, 0xF0#8,   -- 2
    0xF0#8, 0x10#8, 0xF0#8, 0x10#8, 0xF0#8 ]  -- 3
  ++
  [ 0x90#8, 0x90#8, 0xF0#8, 0x10#8, 0x10#8,   -- 4
    0xF0#8, 0x80#8, 0xF0#8, 0x10#8, 0xF0#8,   -- 5
    0xF0#8, 0x80#8, 0xF0#8, 0x90#8, 0xF0#8,   -- 6
    0xF0#8, 0x10#8, 0x20#8, 0x40#8, 0x40#8 ]  -- 7
  ++
  [ 0xF0#8, 0x90#8, 0xF0#8, 0x90#8, 0xF0#8,   -- 8
    0xF0#8, 0x90#8, 0xF0#8, 0x10#8, 0xF0#8,   -- 9
    0xF0#8, 0x90#8, 0xF0#8, 0x90#8, 0x90#8,   -- A
    0xE0#8, 0x90#8, 0xE0#8, 0x90#8, 0xE0#8 ]  -- B
  ++
  [ 0xF0#8, 0x80#8, 0x80#8, 0x80#8, 0xF0#8,   -- C
    0xE0#8, 0x90#8, 0x90#8, 0x90#8, 0xE0#8,   -- D
    0xF0#8, 0x80#8, 0xF0#8, 0x80#8, 0xF0#8,   -- E
    0xF0#8, 0x80#8, 0xF0#8, 0x80#8, 0x80#8 ]  -- F

/-- `FONT_BASE`: where the font is loaded (spec/00_scope.md R4). -/
def fontBase : Nat := 0x000

/-- `FONT_GLYPH_BYTES` (R4). -/
def glyphBytes : Nat := 5

end Sys2Proof.Machine
end

