-- ==== Sys2Proof/Syntax.lean ====
section
/-! DEFINITION. The instructions: one constructor per row of spec/opcode_table.json, in the table's order
(spec/30_encoding.md R74). Operand fields are those of R71; SHR and SHL carry the ignored `y` (R76). -/

namespace Sys2Proof

/-- The index of a general register, V0 to VF (spec/10_state.md R20). -/
abbrev Reg := Fin 16

/-- A key number, 0x0 to 0xF (spec/10_state.md R30). -/
abbrev Key := Fin 16

/-- The decoder's tagged instruction value (spec/30_encoding.md R70). -/
inductive Instr where
  /-- CLS, `00E0`. -/
  | cls
  /-- RET, `00EE`. -/
  | ret
  /-- HIRES, `00FF`. -/
  | hires
  /-- JP nnn, `1nnn`. -/
  | jp (nnn : Addr12)
  /-- CALL nnn, `2nnn`. -/
  | call (nnn : Addr12)
  /-- SE Vx,kk, `3xkk`. -/
  | seImm (x : Reg) (kk : Byte)
  /-- SNE Vx,kk, `4xkk`. -/
  | sneImm (x : Reg) (kk : Byte)
  /-- SE Vx,Vy, `5xy0`. -/
  | seReg (x y : Reg)
  /-- LD Vx,kk, `6xkk`. -/
  | ldImm (x : Reg) (kk : Byte)
  /-- ADD Vx,kk, `7xkk`. -/
  | addImm (x : Reg) (kk : Byte)
  /-- LD Vx,Vy, `8xy0`. -/
  | ldReg (x y : Reg)
  /-- OR Vx,Vy, `8xy1`. -/
  | orReg (x y : Reg)
  /-- AND Vx,Vy, `8xy2`. -/
  | andReg (x y : Reg)
  /-- XOR Vx,Vy, `8xy3`. -/
  | xorReg (x y : Reg)
  /-- ADD Vx,Vy, `8xy4`. -/
  | addReg (x y : Reg)
  /-- SUB Vx,Vy, `8xy5`. -/
  | subReg (x y : Reg)
  /-- SHR Vx, `8xy6`; `y` is ignored. -/
  | shr (x y : Reg)
  /-- SUBN Vx,Vy, `8xy7`. -/
  | subnReg (x y : Reg)
  /-- SHL Vx, `8xyE`; `y` is ignored. -/
  | shl (x y : Reg)
  /-- SNE Vx,Vy, `9xy0`. -/
  | sneReg (x y : Reg)
  /-- LD I,nnn, `Annn`. -/
  | ldIndex (nnn : Addr12)
  /-- JP V0,nnn, `Bnnn`. -/
  | jpV0 (nnn : Addr12)
  /-- RND Vx,kk, `Cxkk`. -/
  | rnd (x : Reg) (kk : Byte)
  /-- DRW Vx,Vy,n, `Dxyn`. -/
  | drw (x y : Reg) (n : Nibble)
  /-- SKP Vx, `Ex9E`. -/
  | skp (x : Reg)
  /-- SKNP Vx, `ExA1`. -/
  | sknp (x : Reg)
  /-- LD Vx,DT, `Fx07`. -/
  | ldFromDelay (x : Reg)
  /-- LD Vx,K, `Fx0A`. -/
  | ldKey (x : Reg)
  /-- LD DT,Vx, `Fx15`. -/
  | ldDelay (x : Reg)
  /-- LD ST,Vx, `Fx18`. -/
  | ldSound (x : Reg)
  /-- ADD I,Vx, `Fx1E`. -/
  | addIndex (x : Reg)
  /-- LD F,Vx, `Fx29`. -/
  | ldFont (x : Reg)
  /-- LD B,Vx, `Fx33`. -/
  | ldBcd (x : Reg)
  /-- LD [I],Vx, `Fx55`. -/
  | dump (x : Reg)
  /-- LD Vx,[I], `Fx65`. -/
  | load (x : Reg)
  /-- UNSUPPORTED w: every word outside the map (R75). -/
  | unsupported (w : Word)
  deriving DecidableEq, Repr

end Sys2Proof
end

