-- ==== Sys2Proof/Machine/State.lean ====
section
/-! DEFINITION. The state of the machine as plain data (spec/10_state.md), what the block and the host say to
each other (spec/61_host_interface.md), the reasons a step can stop, and the state after reset. -/

namespace Sys2Proof.Machine

/-- `h` rows by `w` columns of pixels, `true` is set; row 0 is the top, column 0 the left (R29). -/
abbrev Plane (h w : Nat) := Vector (Vector Bool w) h

/-- The display: the constructor is `mode`, its plane is `disp` (R29). The buffer has the dimensions of the mode
by its type. -/
inductive Display where
  /-- `Standard`, 32 rows by 64 columns. -/
  | standard (disp : Plane 32 64)
  /-- `Extended`, 64 rows by 128 columns. -/
  | extended (disp : Plane 64 128)
  deriving DecidableEq, Repr

/-- The park state of LD Vx,K (R31). -/
inductive Wait where
  /-- `NotWaiting`. -/
  | notWaiting
  /-- `Waiting(x)`: parked, no key-down transition seen yet. -/
  | waiting (x : Reg)
  /-- `KeyLatched(x, k)`: key `k` went down; the next instruction step delivers it. -/
  | keyLatched (x : Reg) (k : Key)
  deriving DecidableEq, Repr

/-- The state of the execution-loop controller (R32, spec/60_exceptions.md R241). -/
inductive Ctrl where
  | running
  | paused
  | stopped
  deriving DecidableEq, Repr

/-- The fault kinds; the name is the code (spec/60_exceptions.md R230). -/
inductive FaultKind where
  | misalignedPC
  | addressOutOfRange
  | unsupportedOpcode
  | stackOverflow
  | stackUnderflow
  | programTooLarge
  deriving DecidableEq, Repr

/-- The fault record: kind, information, and `PC` at the faulting step (R230). A failed program load is no step
of the instruction clock and records no `PC` (R230, R234, R304; log 10). -/
structure FaultRecord where
  kind : FaultKind
  info : Nat
  pc : Option Word
  deriving DecidableEq, Repr

/-- One record of the output stream (spec/61_host_interface.md R280). -/
inductive Notification where
  /-- `ScreenRefresh(snapshot, W, H)`. -/
  | screenRefresh (snapshot : Display) (w h : Nat)
  /-- `RegisterChanged(i, V[i])`. -/
  | registerChanged (i : Reg) (v : Byte)
  /-- `IndexChanged(I)`. -/
  | indexChanged (i : Word)
  /-- `DelayTimerChanged(DT)`. -/
  | delayTimerChanged (dt : Byte)
  /-- `SoundTimerChanged(ST)`. -/
  | soundTimerChanged (st : Byte)
  /-- `PcChanged(PC)`. -/
  | pcChanged (pc : Word)
  /-- `PlaySound`. -/
  | playSound
  /-- `StateChanged(Paused)`. -/
  | changedToPaused
  /-- `StateChanged(Running)`. -/
  | changedToRunning
  /-- `Error(kind, information, PC)`. -/
  | error (r : FaultRecord)
  /-- `Stopped`. -/
  | stopped
  deriving DecidableEq, Repr

/-- The host's requests (spec/61_host_interface.md R271). A reset carries the program image (R278, R279). -/
inductive Request where
  /-- pause(flag): `true` asks for `Paused`, `false` for `Running`. -/
  | pause (flag : Bool)
  | singleStep
  | reset (image : List Byte)
  | stop
  | setInstructionDelay (ms : Nat)
  | keyDown (k : Key)
  | keyUp (k : Key)
  | enableExtendedScreenMode
  deriving DecidableEq, Repr

/-- One step of one agent (spec/00_scope.md R11, spec/60_exceptions.md R248). -/
inductive AgentStep where
  /-- A step of the instruction clock. -/
  | instruction
  /-- A tick of the timer clock. -/
  | tick
  /-- A request of the host. -/
  | host (r : Request)
  deriving DecidableEq, Repr

/-- Memory: (address, byte) cells, addresses strictly rising, no cell equal to what an unlisted address reads as
(`Memory.wf` in Ops.lean). -/
abbrev Memory := List Host.Cell

/-- The machine state (spec/10_state.md, INVENTORY.md '## State'). -/
structure State where
  /-- V0 to VF (R20, R22). -/
  v : Vector Byte 16
  /-- `I` (R25). -/
  index : Word
  /-- `PC` (R23). -/
  pc : Word
  /-- The return stack, bottom first (R26, spec/00_scope.md R6). -/
  stack : List Word
  /-- `DT` (R27). -/
  dt : Byte
  /-- `ST` (R28). -/
  st : Byte
  /-- `mode` and `disp` (R29). -/
  display : Display
  /-- The key-down flags (R30). -/
  keys : Vector Bool 16
  /-- `wait` (R31). -/
  wait : Wait
  /-- `ctrl` (R32). -/
  ctrl : Ctrl
  /-- `err` (R32). -/
  err : Option FaultRecord
  /-- `mem` (R33). -/
  mem : Memory
  /-- The output stream, oldest record first (spec/61_host_interface.md R270; log 5). -/
  notes : List Notification
  /-- The steps the agents take next, in order: the open schedule as data (spec/60_exceptions.md R248; log 2). -/
  agenda : List AgentStep
  /-- The model's own: how many bytes RND has drawn (log 4). -/
  draws : Nat
  /-- `INSTR_DELAY_MS`, which no rule reads (spec/61_host_interface.md R273; log 6). -/
  instrDelayMs : Nat
  deriving DecidableEq, Repr

/-- Reasons to stop with a fault: NONE. Every fault of this machine has an entry the spec describes
(spec/60_exceptions.md R239), so a faulting step answers a next state with `err` set and `ctrl` stopped (log 1);
that the type is empty is safe. -/
inductive Fault : Type
  deriving DecidableEq, Repr

/-- Reasons to refuse. -/
inductive Refusal where
  /-- An instruction that has no meaning yet, by its mnemonic; only `exec`'s own arms may raise it, and none does.
  Safe: a refused step supports no claim. -/
  | notModelled (mnemonic : String)
  deriving DecidableEq, Repr

/-- What an instruction and a step answer. -/
abbrev Result := Host.Outcome State Fault Refusal

/-- The machine right after reset: the start state of a run with an empty image (spec/10_state.md R36,
spec/70_reset_and_hazards.md R301 to R303; logs 2, 4, 5, 6, 7, 8). -/
def State.reset : State where
  v := Vector.replicate 16 0x00#8
  index := 0x0000#16
  pc := 0x0200#16
  stack := []
  dt := 0x00#8
  st := 0x00#8
  display := .standard (Vector.replicate 32 (Vector.replicate 64 false))
  keys := Vector.replicate 16 false
  wait := .notWaiting
  ctrl := .running
  err := none
  mem := []
  notes := []
  agenda := []
  draws := 0
  instrDelayMs := 0

end Sys2Proof.Machine
end

