-- ==== Sys2Proof/Machine/Ops.lean ====
section
/-! DEFINITION. The named operations over memory, registers, stack, flags of the host and output stream, the
completion of an instruction, and TAKING A FAULT, one operation for all of them. -/

namespace Sys2Proof.Machine

/-! ## Memory (spec/20_memory.md R50, R54) -/

/-- What an address that no cell lists reads as: the contents after reset with an empty image, that is the font
at 0x000 to 0x04F and zero elsewhere (R50, spec/70_reset_and_hazards.md R301, R303; log 8). -/
def Memory.unlisted (a : Nat) : Byte :=
  if a < fontBase then 0x00#8 else fontTable.getD (a - fontBase) 0x00#8

/-- The byte at an address. -/
def Memory.read : Memory → Nat → Byte
  | [], a => Memory.unlisted a
  | (k, b) :: m, a => if k = a then b else Memory.read m a

/-- Memory with no cell for the address. -/
def Memory.erase (m : Memory) (a : Nat) : Memory := m.filter fun c => c.1 != a

/-- Memory with a cell put at its place in the rising order. -/
def Memory.place : Memory → Nat → Byte → Memory
  | [], a, b => [(a, b)]
  | (k, v) :: m, a, b => if a < k then (a, b) :: (k, v) :: m else (k, v) :: Memory.place m a b

/-- Store one byte; a byte equal to what the unlisted address reads as leaves no cell. -/
def Memory.write (m : Memory) (a : Nat) (b : Byte) : Memory :=
  if b = Memory.unlisted a then m.erase a else (m.erase a).place a b

/-- The `n` bytes from an address upward. -/
def Memory.readBytes (m : Memory) (a n : Nat) : List Byte :=
  (List.range n).map fun d => m.read (a + d)

/-- Store bytes one by one from an address upward. -/
def Memory.writeBytes : Memory → Nat → List Byte → Memory
  | m, _, [] => m
  | m, a, b :: bs => (m.write a b).writeBytes (a + 1) bs

/-- The canonical form: addresses strictly rising, every cell inside the 4096 bytes and different from what its
address reads as unlisted. -/
abbrev Memory.wf (m : Memory) : Prop :=
  m.Pairwise (fun c d => c.1 < d.1) ∧
    ∀ c ∈ m, c.1 < Config.memSize ∧ c.2 ≠ Memory.unlisted c.1

/-! ## Registers and the other fields -/

/-- `V[x]` (spec/00_scope.md R6). -/
def State.reg (s : State) (x : Reg) : Byte := s.v[x.val]

/-- `V[x] <- b`. -/
def State.setReg (s : State) (x : Reg) (b : Byte) : State := { s with v := s.v.set x.val b }

/-- `V[i] <- b` for the bytes in order from register `i` upward. -/
def State.setRegsFrom (s : State) (i : Nat) : List Byte → State
  | [] => s
  | b :: bs => if h : i < 16 then (s.setReg ⟨i, h⟩ b).setRegsFrom (i + 1) bs else s

/-- `I <- a`. -/
def State.setIndex (s : State) (a : Word) : State := { s with index := a }

/-- `pc <- a`. -/
def State.setPc (s : State) (a : Word) : State := { s with pc := a }

/-- The stack replaced. -/
def State.setStack (s : State) (k : List Word) : State := { s with stack := k }

/-- `DT <- b`. -/
def State.setDt (s : State) (b : Byte) : State := { s with dt := b }

/-- `ST <- b`. -/
def State.setSt (s : State) (b : Byte) : State := { s with st := b }

/-- `mode` and `disp` replaced. -/
def State.setDisplay (s : State) (d : Display) : State := { s with display := d }

/-- `keys[k]`. -/
def State.key (s : State) (k : Key) : Bool := s.keys[k.val]

/-- `keys[k] <- b`. -/
def State.setKey (s : State) (k : Key) (b : Bool) : State := { s with keys := s.keys.set k.val b }

/-- `wait <- w`. -/
def State.setWait (s : State) (w : Wait) : State := { s with wait := w }

/-- `ctrl <- c`. -/
def State.setCtrl (s : State) (c : Ctrl) : State := { s with ctrl := c }

/-- `err <- r`. -/
def State.setErr (s : State) (r : FaultRecord) : State := { s with err := some r }

/-- Memory replaced. -/
def State.setMem (s : State) (m : Memory) : State := { s with mem := m }

/-- `emit`, for records in order: appended to the output stream, and nothing else (spec/00_scope.md R9). -/
def State.emit (s : State) (ns : List Notification) : State := { s with notes := s.notes ++ ns }

/-- The schedule that is left. -/
def State.setAgenda (s : State) (a : List AgentStep) : State := { s with agenda := a }

/-- `INSTR_DELAY_MS <- ms`. -/
def State.setInstrDelay (s : State) (ms : Nat) : State := { s with instrDelayMs := ms }

/-- One more draw is used up. -/
def State.countDraw (s : State) : State := { s with draws := s.draws + 1 }

/-! ## The program counter and the completion of an instruction -/

/-- `next = u16(PC + 2)` (spec/00_scope.md R9). -/
def State.nextPc (s : State) : Word := s.pc + 2#16

/-- `skip = u16(PC + 4)` (R9). -/
def State.skipPc (s : State) : Word := s.pc + 4#16

/-- The end of a completed instruction whose writes to all but `PC` are in `s`: `pc <- target`, then the
notifications of spec/61_host_interface.md R281 in its order: the general registers written (`regs`, ascending),
what else is to be told (`others`), and `PC`. -/
def State.complete (s : State) (target : Word) (regs : List Reg) (others : List Notification) : State :=
  (s.setPc target).emit
    (regs.map (fun r => .registerChanged r (s.reg r)) ++ others ++ [.pcChanged target])

/-! ## Faults -/

/-- TAKING A FAULT, for a fault of any step of the instruction clock: `err <- (K, i, PC)`, `ctrl <- Stopped`,
`Error` and then `Stopped` emitted, and nothing else (spec/60_exceptions.md R239, spec/00_scope.md R8). There is no
return from a fault (R240): the way onward is the host's reset, `newRun` in Boot.lean. -/
def State.raise (s : State) (kind : FaultKind) (info : Nat) : State :=
  let r : FaultRecord := { kind := kind, info := info, pc := some s.pc }
  ((s.setErr r).setCtrl .stopped).emit [.error r, .stopped]

end Sys2Proof.Machine
end

