-- ==== Sys2Proof/Machine/Boot.lean ====
section
/-! DEFINITION. Reset and boot (spec/70_reset_and_hazards.md R300 to R304). -/

namespace Sys2Proof.Machine

/-- The font loaded at `FONT_BASE` (R303). -/
def loadFontSet (s : State) : State := s.setMem (s.mem.writeBytes fontBase fontTable)

/-- The image loaded at 0x200 (R304), or `ProgramTooLarge(L)`: no program byte written, `err` set, `Stopped`,
`Error` and `Stopped` emitted (R234; log 10). -/
def loadProgram (image : List Byte) (s : State) : State :=
  if Config.progMax < image.length then
    let r : FaultRecord := { kind := .programTooLarge, info := image.length, pc := none }
    ((s.setErr r).setCtrl .stopped).emit [.error r, .stopped]
  else s.setMem (s.mem.writeBytes Config.progBase image)

/-- Stop: `ctrl <- Stopped` and the completion notification, everything else left (spec/60_exceptions.md R242). -/
def State.stop (s : State) : State := (s.setCtrl .stopped).emit [.stopped]

/-- Reset with an image: a run that is not `Stopped` is stopped first, then a new run is built: initial values,
font, program (R300, spec/61_host_interface.md R278). What is no machine state goes on: the output stream and the
schedule (logs 2, 5), the draws used up (log 4), `INSTR_DELAY_MS` (R301; log 6). -/
def newRun (image : List Byte) (s : State) : State :=
  let ended := match s.ctrl with
    | .running => s.stop
    | .paused => s.stop
    | .stopped => s
  loadProgram image (loadFontSet
    { State.reset with
      notes := ended.notes, agenda := s.agenda, draws := s.draws, instrDelayMs := s.instrDelayMs })

end Sys2Proof.Machine
end

