-- ==== Sys2Proof/Machine/Flags.lean ====
section
/-! DEFINITION. Every flag computation (spec/10_state.md R22, spec/40_arithmetic_and_moves.md R100,
spec/44_draw.md R172) and the write of a result with its flag, the flag last (R100, decision D6). -/

namespace Sys2Proof.Machine

/-- VF, register 15. -/
def vf : Reg := 15

/-- The flag value, exactly 0 or 1 (R100). -/
def flagOf (b : Bool) : Byte := if b then 0x01#8 else 0x00#8

/-- Carry out of bit 7: the true sum is 256 or more (R104). -/
def carryFlag (a b : Byte) : Byte := flagOf (256 ≤ a.toNat + b.toNat)

/-- No borrow: the minuend is greater than or equal to the subtrahend (R105, R106). -/
def noBorrowFlag (minuend subtrahend : Byte) : Byte := flagOf (subtrahend.toNat ≤ minuend.toNat)

/-- The bit a right shift drops, bit 0 (R107). -/
def shiftRightFlag (a : Byte) : Byte := flagOf (a.getLsbD 0)

/-- The bit a left shift drops, bit 7 (R108). -/
def shiftLeftFlag (a : Byte) : Byte := flagOf (a.getLsbD 7)

/-- `V[x]` written first and VF last (R100). -/
def State.setResultFlag (s : State) (x : Reg) (result flag : Byte) : State :=
  (s.setReg x result).setReg vf flag

/-- The registers that a flag-writing instruction writes, ascending, 15 once (spec/61_host_interface.md R281). -/
def flaggedRegs (x : Reg) : List Reg := if x = vf then [vf] else [x, vf]

end Sys2Proof.Machine
end

