-- ==== Sys2Proof/Machine/Arithmetic.lean ====
section
/-! DEFINITION. Moves, arithmetic, shifts and the random instruction (spec/40_arithmetic_and_moves.md). -/

namespace Sys2Proof.Machine

/-- `V[x] <- b; pc <- next`, for an instruction that writes one register and no flag. -/
def State.loadReg (s : State) (x : Reg) (b : Byte) : State :=
  (s.setReg x b).complete s.nextPc [x] []

/-- `V[x] <- result; V[15] <- flag; pc <- next`, for an instruction that writes the flag. -/
def State.loadRegFlag (s : State) (x : Reg) (result flag : Byte) : State :=
  (s.setResultFlag x result flag).complete s.nextPc (flaggedRegs x) []

/-- LD Vx,kk (R101). -/
def execLdImm (x : Reg) (kk : Byte) (s : State) : Result := .next (s.loadReg x kk)

/-- ADD Vx,kk (R102): wraps, no flag. -/
def execAddImm (x : Reg) (kk : Byte) (s : State) : Result := .next (s.loadReg x (s.reg x + kk))

/-- LD Vx,Vy (R103). -/
def execLdReg (x y : Reg) (s : State) : Result := .next (s.loadReg x (s.reg y))

/-- ADD Vx,Vy (R104). -/
def execAddReg (x y : Reg) (s : State) : Result :=
  .next (s.loadRegFlag x (s.reg x + s.reg y) (carryFlag (s.reg x) (s.reg y)))

/-- SUB Vx,Vy (R105). -/
def execSubReg (x y : Reg) (s : State) : Result :=
  .next (s.loadRegFlag x (s.reg x - s.reg y) (noBorrowFlag (s.reg x) (s.reg y)))

/-- SUBN Vx,Vy (R106): the operands exchanged, the destination still Vx. -/
def execSubnReg (x y : Reg) (s : State) : Result :=
  .next (s.loadRegFlag x (s.reg y - s.reg x) (noBorrowFlag (s.reg y) (s.reg x)))

/-- SHR Vx (R107): in place, logical; `y` is ignored (decision D5). -/
def execShr (x _y : Reg) (s : State) : Result :=
  .next (s.loadRegFlag x (s.reg x >>> 1) (shiftRightFlag (s.reg x)))

/-- SHL Vx (R108): in place; `y` is ignored (decision D5). -/
def execShl (x _y : Reg) (s : State) : Result :=
  .next (s.loadRegFlag x (s.reg x <<< 1) (shiftLeftFlag (s.reg x)))

/-- RND Vx,kk (R109): a fresh free byte under the mask (log 4). -/
def execRnd (x : Reg) (kk : Byte) (s : State) : Result :=
  .next (s.countDraw.loadReg x (Config.drawByte s.draws &&& kk))

end Sys2Proof.Machine
end

