-- ==== Sys2Proof/Machine/Operands.lean ====
section
/-! DEFINITION. The operand forms: widened immediates and registers (spec/30_encoding.md R73), the low nibble as
a digit or key (spec/43_memory_instructions.md R153, spec/46_input.md R190), and the bytes at `I` with the check of
their whole range (R150, spec/20_memory.md R55). -/

namespace Sys2Proof.Machine

/-- `zext_16(nnn)` (R73). -/
def zextAddr (nnn : Addr12) : Word := nnn.setWidth 16

/-- `zext_16(V[x])` (R152, R132). -/
def zextByte (b : Byte) : Word := b.setWidth 16

/-- `V[x][3:0]` as a number 0 to 15: the glyph of LD F,Vx and the key of SKP and SKNP (R153, R190). -/
def lowNibble (b : Byte) : Fin 16 := (b.extractLsb' 0 4).toFin

/-- The address of glyph `d` (R153). -/
def glyphAddress (d : Fin 16) : Word := BitVec.ofNat 16 (fontBase + glyphBytes * d.val)

/-- The fault address of an access to the `m` bytes from `base` upward: none when all are in 0x000 to 0xFFF or
`m` is 0, else the lowest address of the range above 0xFFF (R55; with `m = 1` this is the check of
spec/00_scope.md R7). -/
def accessFault (base m : Nat) : Option Nat :=
  if 1 ≤ m ∧ 0xFFF < base + m - 1 then some (max base 0x1000) else none

/-- An instruction that touches `m` bytes at `I`: the fault before anything is written, or what it does (R55). -/
def withRange (s : State) (m : Nat) (done : State) : Result :=
  match accessFault s.index.toNat m with
  | some a => .next (s.raise .addressOutOfRange a)
  | none => .next done

/-- `V[0]` to `V[x]`, the bytes of a register dump (R155). -/
def dumpBytes (s : State) (x : Reg) : List Byte := s.v.toList.take (x.val + 1)

/-- The registers V0 to Vx in ascending order. -/
def regsUpTo (x : Reg) : List Reg := (List.finRange 16).take (x.val + 1)

/-- The hundreds, tens and ones of a byte, hundreds first (R154). -/
def decimalDigits (b : Byte) : List Byte :=
  [BitVec.ofNat 8 (b.toNat / 100), BitVec.ofNat 8 (b.toNat / 10 % 10), BitVec.ofNat 8 (b.toNat % 10)]

end Sys2Proof.Machine
end

