-- ==== Sys2Proof/Machine/Control.lean ====
section
/-! DEFINITION. Jumps, subroutines and skips (spec/42_control_flow.md). A transfer writes its target whatever it
is; the next fetch checks it (R130). -/

namespace Sys2Proof.Machine

/-- `pc <- target`, for an instruction that writes nothing else. -/
def State.jump (s : State) (target : Word) : State := s.complete target [] []

/-- `if taken then pc <- skip else pc <- next` (R130). -/
def State.skipIf (s : State) (taken : Bool) : State := s.jump (if taken then s.skipPc else s.nextPc)

/-- JP nnn (R131). -/
def execJp (nnn : Addr12) (s : State) : Result := .next (s.jump (zextAddr nnn))

/-- JP V0,nnn (R132): the offset register is V0, the sum is not reduced (decision D9). -/
def execJpV0 (nnn : Addr12) (s : State) : Result := .next (s.jump (zextAddr nnn + zextByte (s.reg 0)))

/-- CALL nnn (R133): StackOverflow on a stack that already holds 16 entries (log 11), else the address of the
following instruction is pushed. -/
def execCall (nnn : Addr12) (s : State) : Result :=
  if Config.stackDepth ≤ s.stack.length then .next (s.raise .stackOverflow s.pc.toNat)
  else .next ((s.setStack (s.stack ++ [s.nextPc])).jump (zextAddr nnn))

/-- RET (R134): StackUnderflow on an empty stack, else the last entry is popped into `PC`. -/
def execRet (s : State) : Result :=
  match s.stack.getLast? with
  | none => .next (s.raise .stackUnderflow s.pc.toNat)
  | some target => .next ((s.setStack s.stack.dropLast).jump target)

/-- SE Vx,kk (R135). -/
def execSeImm (x : Reg) (kk : Byte) (s : State) : Result := .next (s.skipIf (s.reg x == kk))

/-- SNE Vx,kk (R136). -/
def execSneImm (x : Reg) (kk : Byte) (s : State) : Result := .next (s.skipIf (s.reg x != kk))

/-- SE Vx,Vy (R137). -/
def execSeReg (x y : Reg) (s : State) : Result := .next (s.skipIf (s.reg x == s.reg y))

/-- SNE Vx,Vy (R138). -/
def execSneReg (x y : Reg) (s : State) : Result := .next (s.skipIf (s.reg x != s.reg y))

end Sys2Proof.Machine
end

