-- ==== Sys2Proof/Machine/Display.lean ====
section
/-! DEFINITION. The display buffer (spec/10_state.md R29, spec/44_draw.md R170 to R172): geometry, clearing, the
mode switch, and the exclusive-or of a sprite with wraparound of every pixel. -/

namespace Sys2Proof.Machine

/-- The two display modes (R29). -/
inductive Mode where
  | standard
  | extended
  deriving DecidableEq, Repr

/-- `mode`. -/
def Display.mode : Display → Mode
  | .standard _ => .standard
  | .extended _ => .extended

/-- `W`, the width of the active mode (R170). -/
def Display.width : Display → Nat
  | .standard _ => 64
  | .extended _ => 128

/-- `H`, the height of the active mode (R170). -/
def Display.height : Display → Nat
  | .standard _ => 32
  | .extended _ => 64

/-- The pixel at a row and column of a plane. -/
def Plane.pixel {h w : Nat} (p : Plane h w) (r : Fin h) (c : Fin w) : Bool := p[r.val][c.val]

/-- `disp[r][c]`; outside the active dimensions there is no pixel, and the answer is `false`. -/
def Display.pixel (d : Display) (r c : Nat) : Bool :=
  match d with
  | .standard p => if h : r < 32 ∧ c < 64 then Plane.pixel p ⟨r, h.1⟩ ⟨c, h.2⟩ else false
  | .extended p => if h : r < 64 ∧ c < 128 then Plane.pixel p ⟨r, h.1⟩ ⟨c, h.2⟩ else false

/-- A plane with every pixel unset. -/
def Plane.blank (h w : Nat) : Plane h w := Vector.replicate h (Vector.replicate w false)

/-- Every pixel of the active buffer unset, the mode kept (R171). -/
def Display.clear : Display → Display
  | .standard _ => .standard (Plane.blank 32 64)
  | .extended _ => .extended (Plane.blank 64 128)

/-- The mode switch: from `Standard` a blank 128 by 64 buffer, in `Extended` nothing
(spec/47_extended_and_unsupported.md R201, decision D14). -/
def Display.extend : Display → Display
  | .standard _ => .extended (Plane.blank 64 128)
  | .extended p => .extended p

/-- `disp[r][c] <- not disp[r][c]`. -/
def Plane.flip {h w : Nat} (p : Plane h w) (r : Fin h) (c : Fin w) : Plane h w :=
  p.set r.val (p[r.val].set c.val (!Plane.pixel p r c))

/-- A coordinate modulo a dimension (R172, decision D12). -/
def wrapTo (n : Nat) [NeZero n] (k : Nat) : Fin n := Fin.ofNat n k

/-- One sprite bit at an origin plus offset: a set bit flips the pixel at the coordinates modulo the dimensions,
and hits if that pixel was set (R172). -/
def Plane.drawBit {h w : Nat} [NeZero h] [NeZero w] (p : Plane h w) (hit : Bool) (y x : Nat) (bit : Bool) :
    Plane h w × Bool :=
  if bit then (p.flip (wrapTo h y) (wrapTo w x), hit || p.pixel (wrapTo h y) (wrapTo w x))
  else (p, hit)

/-- The columns `cs` of one sprite row, bit 7 leftmost (R172). -/
def Plane.drawColumns {h w : Nat} [NeZero h] [NeZero w] (y x : Nat) (b : Byte) :
    List Nat → Plane h w × Bool → Plane h w × Bool
  | [], acc => acc
  | c :: cs, acc => Plane.drawColumns y x b cs (acc.1.drawBit acc.2 y (x + c) (b.getLsbD (7 - c)))

/-- The rows of a sprite from row `y` downward (R172). -/
def Plane.drawRows {h w : Nat} [NeZero h] [NeZero w] (x : Nat) :
    Nat → List Byte → Plane h w × Bool → Plane h w × Bool
  | _, [], acc => acc
  | y, b :: bs, acc => Plane.drawRows x (y + 1) bs (Plane.drawColumns y x b (List.range 8) acc)

/-- A sprite drawn with its top left pixel at row `y`, column `x`: the new buffer, and whether a pixel went from
set to unset (R172). -/
def Display.draw (d : Display) (y x : Nat) (sprite : List Byte) : Display × Bool :=
  match d with
  | .standard p => let q := Plane.drawRows x y sprite (p, false); (.standard q.1, q.2)
  | .extended p => let q := Plane.drawRows x y sprite (p, false); (.extended q.1, q.2)

end Sys2Proof.Machine
end

