-- ==== Sys2Proof/Machine/Draw.lean ====
section
/-! DEFINITION. CLS, DRW (spec/44_draw.md) and HIRES (spec/47_extended_and_unsupported.md R201). -/

namespace Sys2Proof.Machine

/-- `ScreenRefresh(copy of disp, W, H)` (spec/61_host_interface.md R282). -/
def refreshOf (d : Display) : Notification := .screenRefresh d d.width d.height

/-- CLS (R171): no flag, no screen-refresh. -/
def execCls (s : State) : Result := .next ((s.setDisplay s.display.clear).complete s.nextPc [] [])

/-- HIRES (R201): sets the extended mode, never clears it. -/
def execHires (s : State) : Result := .next ((s.setDisplay s.display.extend).complete s.nextPc [] [])

/-- A drawn buffer and its collision written: `disp`, then VF, then `pc <- next`, then the notifications with one
screen-refresh (R172, spec/61_host_interface.md R281). -/
def State.drawn (s : State) (q : Display × Bool) : State :=
  ((s.setDisplay q.1).setReg vf (flagOf q.2)).complete s.nextPc [vf] [refreshOf q.1]

/-- DRW Vx,Vy,n (R172): column Vx, row Vy, the `n` bytes at `I`. -/
def execDrw (x y : Reg) (n : Nibble) (s : State) : Result :=
  withRange s n.toNat
    (s.drawn (s.display.draw (s.reg y).toNat (s.reg x).toNat (s.mem.readBytes s.index.toNat n.toNat)))

end Sys2Proof.Machine
end

