-- ==== Sys2Proof/Machine/Index.lean ====
section
/-! DEFINITION. The index register and the memory instructions (spec/43_memory_instructions.md). `I` is never
changed by an access (R150); the whole range is checked first (spec/20_memory.md R55). -/

namespace Sys2Proof.Machine

/-- `I <- a; pc <- next`. -/
def State.loadIndex (s : State) (a : Word) : State :=
  (s.setIndex a).complete s.nextPc [] [.indexChanged a]

/-- `mem[I], mem[I + 1], ... <- bs; pc <- next`. -/
def State.store (s : State) (bs : List Byte) : State :=
  (s.setMem (s.mem.writeBytes s.index.toNat bs)).complete s.nextPc [] []

/-- LD I,nnn (R151). -/
def execLdIndex (nnn : Addr12) (s : State) : Result := .next (s.loadIndex (zextAddr nnn))

/-- ADD I,Vx (R152): modulo 65536, VF untouched (decision D8). -/
def execAddIndex (x : Reg) (s : State) : Result := .next (s.loadIndex (s.index + zextByte (s.reg x)))

/-- LD F,Vx (R153): the glyph of the low nibble (decision D10). -/
def execLdFont (x : Reg) (s : State) : Result := .next (s.loadIndex (glyphAddress (lowNibble (s.reg x))))

/-- LD B,Vx (R154). -/
def execLdBcd (x : Reg) (s : State) : Result := withRange s 3 (s.store (decimalDigits (s.reg x)))

/-- LD [I],Vx (R155). -/
def execDump (x : Reg) (s : State) : Result := withRange s (x.val + 1) (s.store (dumpBytes s x))

/-- LD Vx,[I] (R156). -/
def execLoad (x : Reg) (s : State) : Result :=
  withRange s (x.val + 1)
    ((s.setRegsFrom 0 (s.mem.readBytes s.index.toNat (x.val + 1))).complete s.nextPc (regsUpTo x) [])

end Sys2Proof.Machine
end

