-- ==== Sys2Proof/Machine/Input.lean ====
section
/-! DEFINITION. The keypad instructions (spec/46_input.md) and the parked steps of LD Vx,K (R193). -/

namespace Sys2Proof.Machine

/-- The key an instruction tests: the low nibble of `V[x]` (R190, decision D11). -/
def State.keyOf (s : State) (x : Reg) : Bool := s.key (lowNibble (s.reg x))

/-- SKP Vx (R191). -/
def execSkp (x : Reg) (s : State) : Result := .next (s.skipIf (s.keyOf x))

/-- SKNP Vx (R192). -/
def execSknp (x : Reg) (s : State) : Result := .next (s.skipIf (!s.keyOf x))

/-- An instruction step while `wait` is not `NotWaiting`: parked, nothing; latched, `V[x] <- k; pc <- next;
wait <- NotWaiting` (R193, spec/60_exceptions.md R247). With `NotWaiting` there is nothing to resume. -/
def State.resumeWait (s : State) : State :=
  match s.wait with
  | .notWaiting => s
  | .waiting _ => s
  | .keyLatched x k => (s.setWait .notWaiting).loadReg x (BitVec.ofNat 8 k.val)

/-- LD Vx,K (R193): with `NotWaiting` it parks, `PC` unchanged and nothing emitted; a step of the instruction
while it waits is the parked step (log 13). -/
def execLdKey (x : Reg) (s : State) : Result :=
  match s.wait with
  | .notWaiting => .next (s.setWait (.waiting x))
  | .waiting _ => .next s.resumeWait
  | .keyLatched _ _ => .next s.resumeWait

end Sys2Proof.Machine
end

