-- ==== Sys2Proof/Machine/Logic.lean ====
section
/-! DEFINITION. The logic instructions (spec/41_logic.md R120 to R123): bitwise, VF is not a flag here
(decision D7). -/

namespace Sys2Proof.Machine

/-- OR Vx,Vy (R121). -/
def execOrReg (x y : Reg) (s : State) : Result := .next (s.loadReg x (s.reg x ||| s.reg y))

/-- AND Vx,Vy (R122). -/
def execAndReg (x y : Reg) (s : State) : Result := .next (s.loadReg x (s.reg x &&& s.reg y))

/-- XOR Vx,Vy (R123). -/
def execXorReg (x y : Reg) (s : State) : Result := .next (s.loadReg x (s.reg x ^^^ s.reg y))

end Sys2Proof.Machine
end

