-- ==== Sys2Proof/Machine/System.lean ====
section
/-! DEFINITION. The words outside the opcode map (spec/47_extended_and_unsupported.md R202). -/

namespace Sys2Proof.Machine

/-- UNSUPPORTED w (R202): takes the fault `UnsupportedOpcode(w)`. -/
def execUnsupported (w : Word) (s : State) : Result := .next (s.raise .unsupportedOpcode w.toNat)

end Sys2Proof.Machine
end

