-- ==== Sys2Proof/Machine/Timers.lean ====
section
/-! DEFINITION. The timer instructions (spec/45_timer_instructions.md) and the tick of the timer clock
(spec/60_exceptions.md R245, R246). -/

namespace Sys2Proof.Machine

/-- LD Vx,DT (R181). -/
def execLdFromDelay (x : Reg) (s : State) : Result := .next (s.loadReg x s.dt)

/-- LD DT,Vx (R182). -/
def execLdDelay (x : Reg) (s : State) : Result :=
  .next ((s.setDt (s.reg x)).complete s.nextPc [] [.delayTimerChanged (s.reg x)])

/-- LD ST,Vx (R183); the play-sound comes from the tick. -/
def execLdSound (x : Reg) (s : State) : Result :=
  .next ((s.setSt (s.reg x)).complete s.nextPc [] [.soundTimerChanged (s.reg x)])

/-- The tick's first line: `DT` counts down to 0 and stays there (R245). -/
def State.tickDelay (s : State) : State :=
  if s.dt = 0x00#8 then s
  else (s.setDt (s.dt - 1#8)).emit [.delayTimerChanged (s.dt - 1#8)]

/-- The tick's second line: while `ST` is nonzero it sounds and counts down (R245, decision D17). -/
def State.tickSound (s : State) : State :=
  if s.st = 0x00#8 then s
  else (s.setSt (s.st - 1#8)).emit [.playSound, .soundTimerChanged (s.st - 1#8)]

/-- A tick: enabled in `Running` and `Paused`, nothing in `Stopped` (R245, R246, decision D18). -/
def tick (s : State) : State :=
  match s.ctrl with
  | .stopped => s
  | .running => s.tickDelay.tickSound
  | .paused => s.tickDelay.tickSound

end Sys2Proof.Machine
end

