-- ==== Sys2Proof/WellFormed.lean ====
section
/-! DEFINITION. Well-formed instructions. The types of the operand fields admit exactly the values of
spec/30_encoding.md R73 (every `x`, `y`, `n`, `kk`, `nnn` is legal), so one check is left: an `unsupported w`
must carry a word that the opcode map does not support (R75). -/

namespace Sys2Proof

/-- Whether a word is in the opcode map, read from R75's table of the UNSUPPORTED words group by group, by
arithmetic on the word's value: `hi` is `w[15:12]`, `lo` is `w[7:0]`, `nib` is `w[3:0]`. -/
def supportedWord (w : Word) : Bool :=
  let hi := w.toNat / 0x1000
  let lo := w.toNat % 0x100
  let nib := w.toNat % 0x10
  if hi = 0x0 then w == 0x00E0#16 || w == 0x00EE#16 || w == 0x00FF#16
  else if hi = 0x5 then nib == 0
  else if hi = 0x8 then nib ≤ 7 || nib == 0xE
  else if hi = 0x9 then nib == 0
  else if hi = 0xE then lo == 0x9E || lo == 0xA1
  else if hi = 0xF then
    [0x07, 0x0A, 0x15, 0x18, 0x1E, 0x29, 0x33, 0x55, 0x65].contains lo
  else true

/-- The check on an instruction as syntax. -/
def Instr.wf : Instr → Bool
  | .unsupported w => !supportedWord w
  | _ => true

/-- An instruction that some word stands for. -/
abbrev Instr.WellFormed (i : Instr) : Prop := i.wf = true

end Sys2Proof
end

