-- ==== Sys2Proof/Decode.lean ====
section
/-! DEFINITION. The decoder, total on every word and on any bytes (spec/30_encoding.md R70 to R77), and after it
the encoder, written from the same opcode map (R72, R74). -/

namespace Sys2Proof

/-! ## The fields of a word (R71) -/

/-- The word of two bytes, the first one more significant (spec/20_memory.md R52, decision D1). -/
def wordOf (hi lo : Byte) : Word := hi ++ lo

/-- The two bytes of a word in memory order (R52). -/
def bytesOf (w : Word) : List Byte := [w.extractLsb' 8 8, w.extractLsb' 0 8]

/-- `op`, bits 15 to 12. -/
def fieldOp (w : Word) : Nibble := w.extractLsb' 12 4

/-- `x`, bits 11 to 8. -/
def fieldX (w : Word) : Reg := (w.extractLsb' 8 4).toFin

/-- `y`, bits 7 to 4. -/
def fieldY (w : Word) : Reg := (w.extractLsb' 4 4).toFin

/-- `n`, bits 3 to 0. -/
def fieldN (w : Word) : Nibble := w.extractLsb' 0 4

/-- `kk`, bits 7 to 0. -/
def fieldKK (w : Word) : Byte := w.extractLsb' 0 8

/-- `nnn`, bits 11 to 0. -/
def fieldNNN (w : Word) : Addr12 := w.extractLsb' 0 12

/-! ## The opcode map (R74) -/

/-- Group 0: exact words only (format E). -/
def decodeGroup0 (w : Word) : Instr :=
  match w with
  | 0x00E0#16 => .cls
  | 0x00EE#16 => .ret
  | 0x00FF#16 => .hires
  | _ => .unsupported w

/-- Groups 5 and 9: the low nibble must be 0 (R76). -/
def decodeGroup59 (mk : Reg → Reg → Instr) (w : Word) : Instr :=
  match fieldN w with
  | 0x0#4 => mk (fieldX w) (fieldY w)
  | _ => .unsupported w

/-- Group 8: the minor opcode is the low nibble (format XY). -/
def decodeGroup8 (w : Word) : Instr :=
  match fieldN w with
  | 0x0#4 => .ldReg (fieldX w) (fieldY w)
  | 0x1#4 => .orReg (fieldX w) (fieldY w)
  | 0x2#4 => .andReg (fieldX w) (fieldY w)
  | 0x3#4 => .xorReg (fieldX w) (fieldY w)
  | 0x4#4 => .addReg (fieldX w) (fieldY w)
  | 0x5#4 => .subReg (fieldX w) (fieldY w)
  | 0x6#4 => .shr (fieldX w) (fieldY w)
  | 0x7#4 => .subnReg (fieldX w) (fieldY w)
  | 0xE#4 => .shl (fieldX w) (fieldY w)
  | _ => .unsupported w

/-- Group E: the minor opcode is the low byte (format X). -/
def decodeGroupE (w : Word) : Instr :=
  match fieldKK w with
  | 0x9E#8 => .skp (fieldX w)
  | 0xA1#8 => .sknp (fieldX w)
  | _ => .unsupported w

/-- Group F: the minor opcode is the low byte (format X). -/
def decodeGroupF (w : Word) : Instr :=
  match fieldKK w with
  | 0x07#8 => .ldFromDelay (fieldX w)
  | 0x0A#8 => .ldKey (fieldX w)
  | 0x15#8 => .ldDelay (fieldX w)
  | 0x18#8 => .ldSound (fieldX w)
  | 0x1E#8 => .addIndex (fieldX w)
  | 0x29#8 => .ldFont (fieldX w)
  | 0x33#8 => .ldBcd (fieldX w)
  | 0x55#8 => .dump (fieldX w)
  | 0x65#8 => .load (fieldX w)
  | _ => .unsupported w

/-- The decoder: a pure, total function of the word (R70, R74); a word outside the map is `unsupported` (R75). -/
def decode (w : Word) : Instr :=
  match fieldOp w with
  | 0x0#4 => decodeGroup0 w
  | 0x1#4 => .jp (fieldNNN w)
  | 0x2#4 => .call (fieldNNN w)
  | 0x3#4 => .seImm (fieldX w) (fieldKK w)
  | 0x4#4 => .sneImm (fieldX w) (fieldKK w)
  | 0x5#4 => decodeGroup59 .seReg w
  | 0x6#4 => .ldImm (fieldX w) (fieldKK w)
  | 0x7#4 => .addImm (fieldX w) (fieldKK w)
  | 0x8#4 => decodeGroup8 w
  | 0x9#4 => decodeGroup59 .sneReg w
  | 0xA#4 => .ldIndex (fieldNNN w)
  | 0xB#4 => .jpV0 (fieldNNN w)
  | 0xC#4 => .rnd (fieldX w) (fieldKK w)
  | 0xD#4 => .drw (fieldX w) (fieldY w) (fieldN w)
  | 0xE#4 => decodeGroupE w
  | 0xF#4 => decodeGroupF w
  | _ => .unsupported w

/-- Why bytes hold no instruction. -/
inductive DecodeError where
  /-- Fewer than the two bytes of one word are there (R70: there is one instruction length). -/
  | truncated
  deriving DecidableEq, Repr

/-- The decoder on bytes: the instruction of the first two and the bytes left over, or the reason there is none. -/
def decodeBytes : List Byte → Except DecodeError (Instr × List Byte)
  | hi :: lo :: rest => .ok (decode (wordOf hi lo), rest)
  | _ => .error .truncated

/-! ## The encoder (R72, R74) -/

/-- Format A: `op`, `nnn`. -/
def packA (op : Nibble) (nnn : Addr12) : Word := op ++ nnn

/-- Format XK: `op`, `x`, `kk`; format X has its minor opcode as `kk`. -/
def packXK (op : Nibble) (x : Reg) (kk : Byte) : Word :=
  op ++ ((BitVec.ofFin x : Nibble) ++ kk : BitVec 12)

/-- Format XYN: `op`, `x`, `y`, `n`; format XY has its minor opcode as `n`. -/
def packXYN (op : Nibble) (x y : Reg) (n : Nibble) : Word :=
  op ++ ((BitVec.ofFin x : Nibble) ++ ((BitVec.ofFin y : Nibble) ++ n : BitVec 8) : BitVec 12)

/-- The word of an instruction. -/
def encode : Instr → Word
  | .cls => 0x00E0#16
  | .ret => 0x00EE#16
  | .hires => 0x00FF#16
  | .jp nnn => packA 0x1#4 nnn
  | .call nnn => packA 0x2#4 nnn
  | .seImm x kk => packXK 0x3#4 x kk
  | .sneImm x kk => packXK 0x4#4 x kk
  | .seReg x y => packXYN 0x5#4 x y 0x0#4
  | .ldImm x kk => packXK 0x6#4 x kk
  | .addImm x kk => packXK 0x7#4 x kk
  | .ldReg x y => packXYN 0x8#4 x y 0x0#4
  | .orReg x y => packXYN 0x8#4 x y 0x1#4
  | .andReg x y => packXYN 0x8#4 x y 0x2#4
  | .xorReg x y => packXYN 0x8#4 x y 0x3#4
  | .addReg x y => packXYN 0x8#4 x y 0x4#4
  | .subReg x y => packXYN 0x8#4 x y 0x5#4
  | .shr x y => packXYN 0x8#4 x y 0x6#4
  | .subnReg x y => packXYN 0x8#4 x y 0x7#4
  | .shl x y => packXYN 0x8#4 x y 0xE#4
  | .sneReg x y => packXYN 0x9#4 x y 0x0#4
  | .ldIndex nnn => packA 0xA#4 nnn
  | .jpV0 nnn => packA 0xB#4 nnn
  | .rnd x kk => packXK 0xC#4 x kk
  | .drw x y n => packXYN 0xD#4 x y n
  | .skp x => packXK 0xE#4 x 0x9E#8
  | .sknp x => packXK 0xE#4 x 0xA1#8
  | .ldFromDelay x => packXK 0xF#4 x 0x07#8
  | .ldKey x => packXK 0xF#4 x 0x0A#8
  | .ldDelay x => packXK 0xF#4 x 0x15#8
  | .ldSound x => packXK 0xF#4 x 0x18#8
  | .addIndex x => packXK 0xF#4 x 0x1E#8
  | .ldFont x => packXK 0xF#4 x 0x29#8
  | .ldBcd x => packXK 0xF#4 x 0x33#8
  | .dump x => packXK 0xF#4 x 0x55#8
  | .load x => packXK 0xF#4 x 0x65#8
  | .unsupported w => w

/-- The bytes of an instruction, in memory order (R52). -/
def encodeBytes (i : Instr) : List Byte := bytesOf (encode i)

/-! ## The table's words -/

/-- The bytes of an instruction whose bits are `w`, numbered as spec/opcode_table.json numbers them: every
instruction is one 16-bit word, stored most significant byte first. -/
def tableBytes (w : Nat) : List Byte := bytesOf (BitVec.ofNat 16 w)

/-- What the decoder reads from an instruction whose bits are `w`; every row of the table has 16 bits. -/
def decodeTableWord (_nbits w : Nat) : Option Instr :=
  match decodeBytes (tableBytes w) with
  | .ok (i, _) => some i
  | .error _ => none

end Sys2Proof
end

