-- ==== Sys2Proof/Machine/Fetch.lean ====
section
/-! DEFINITION. Instruction fetch (spec/20_memory.md R52, R53, spec/60_exceptions.md R247). -/

namespace Sys2Proof.Machine

/-- The word at an address, most significant byte first (R52). -/
def Memory.word (m : Memory) (a : Nat) : Word := wordOf (m.read a) (m.read (a + 1))

/-- The word at `PC`, or the fault of the fetch and its information: alignment first, then the bound
(R52, R53, R238, R247). -/
def fetch (s : State) : Except (FaultKind × Nat) Word :=
  if s.pc.getLsbD 0 then .error (.misalignedPC, s.pc.toNat)
  else if 0xFFE < s.pc.toNat then .error (.addressOutOfRange, s.pc.toNat)
  else .ok (s.mem.word s.pc.toNat)

/-- The address where an instruction is to be placed so that the next fetch reads it: `PC` where a fetch there is
allowed, else the entry point (for `State.withFetchWord` in Step.lean). -/
def State.fetchablePc (s : State) : Word :=
  if s.pc.getLsbD 0 || 0xFFE < s.pc.toNat then BitVec.ofNat 16 Config.progBase else s.pc

end Sys2Proof.Machine
end

