-- ==== Sys2Proof/Machine/Clock.lean ====
section
/-! DEFINITION. The instruction step and the instruction clock (spec/60_exceptions.md R247, R248). -/

namespace Sys2Proof.Machine

/-- The instruction step (R247): a parked or latched LD Vx,K first, without a fetch; else fetch, decode,
execute. -/
def instructionStep (s : State) : Result :=
  match s.wait with
  | .waiting _ => .next s.resumeWait
  | .keyLatched _ _ => .next s.resumeWait
  | .notWaiting =>
    match fetch s with
    | .error (kind, info) => .next (s.raise kind info)
    | .ok w => exec (decode w) s

/-- A step of the instruction clock: enabled in `Running`; elsewhere nothing changes (R241, R248; log 2). -/
def instructionClock (s : State) : Result :=
  match s.ctrl with
  | .running => instructionStep s
  | .paused => .next s
  | .stopped => .next s

end Sys2Proof.Machine
end

