-- ==== Sys2Proof/Machine/Requests.lean ====
section
/-! DEFINITION. The host's requests (spec/60_exceptions.md R241, R242, spec/61_host_interface.md R271 to R278). -/

namespace Sys2Proof.Machine

/-- pause(flag) in `Running` or `Paused`: the flag names the target; asking for the current one does nothing
(R241, R272, spec/90_conflicts.md C7). -/
def State.pause (s : State) (flag : Bool) : State :=
  match s.ctrl, flag with
  | .running, true => (s.setCtrl .paused).emit [.changedToPaused]
  | .paused, false => (s.setCtrl .running).emit [.changedToRunning]
  | .running, false => s
  | .paused, true => s
  | .stopped, _ => s

/-- key-down(k): a transition latches a parked LD Vx,K and sets the flag; a key already down changes nothing
(R274). -/
def State.keyDown (s : State) (k : Key) : State :=
  if s.key k then s
  else
    match s.wait with
    | .waiting x => (s.setWait (.keyLatched x k)).setKey k true
    | .notWaiting => s.setKey k true
    | .keyLatched _ _ => s.setKey k true

/-- key-up(k) (R275). -/
def State.keyUp (s : State) (k : Key) : State := s.setKey k false

/-- A request in `Running` or `Paused`. -/
def liveRequest (r : Request) (s : State) : Result :=
  match r with
  | .pause flag => .next (s.pause flag)
  | .singleStep =>
    match s.ctrl with
    | .paused => instructionStep s
    | .running => .next s
    | .stopped => .next s
  | .reset image => .next (newRun image s)
  | .stop => .next s.stop
  | .setInstructionDelay ms => .next (s.setInstrDelay ms)
  | .keyDown k => .next (s.keyDown k)
  | .keyUp k => .next (s.keyUp k)
  | .enableExtendedScreenMode => .next (s.setDisplay s.display.extend)

/-- A request in `Stopped`: only reset does anything (R241, R271, decision D21). -/
def stoppedRequest (r : Request) (s : State) : State :=
  match r with
  | .reset image => newRun image s
  | .pause _ => s
  | .singleStep => s
  | .stop => s
  | .setInstructionDelay _ => s
  | .keyDown _ => s
  | .keyUp _ => s
  | .enableExtendedScreenMode => s

/-- A step of the host. -/
def request (r : Request) (s : State) : Result :=
  match s.ctrl with
  | .running => liveRequest r s
  | .paused => liveRequest r s
  | .stopped => .next (stoppedRequest r s)

/-- One step of one agent; a clock that is not enabled changes nothing (spec/60_exceptions.md R248). -/
def agentStep (a : AgentStep) (s : State) : Result :=
  match a with
  | .instruction => instructionClock s
  | .tick => .next (tick s)
  | .host r => request r s

/-- The whole machine (R248): the agent the schedule names next, else the instruction clock (log 2). -/
def machineStep (s : State) : Result :=
  match s.agenda with
  | [] => instructionClock s
  | a :: rest => agentStep a (s.setAgenda rest)

/-- The state with the instruction of a table word placed where the next step fetches it, and all that this takes:
the instruction clock next (`Running`, not parked, an empty schedule) and a `PC` that can be fetched from (log 7). -/
def State.placeWord (s : State) (w : Nat) : State :=
  let a := s.fetchablePc
  ((((s.setPc a).setWait .notWaiting).setCtrl .running).setAgenda []).setMem
    (s.mem.writeBytes a.toNat (tableBytes w))

end Sys2Proof.Machine
end

