-- ==== Sys2Proof/Machine/Disassembler.lean ====
section
/-! DEFINITION. The disassembler: a pure function from a program image to a listing (spec/50_disassembler.md), and
the assembler syntax of an instruction (spec/30_encoding.md R78). It is no part of the state (spec/10_state.md
R34). -/

namespace Sys2Proof.Machine

/-! ## The sweep (R210 to R213) -/

/-- A record of the listing: the address `0x200 + offset` and the decoded instruction, which carries its operands
(R212). -/
structure Record where
  address : Nat
  instr : Instr
  deriving DecidableEq, Repr

/-- The linear sweep from a buffer offset, two bytes at a time; a last odd byte gives no record (R211). An
unsupported word is a record like any other (R213). -/
def sweepFrom : Nat → List Byte → List Record
  | offset, hi :: lo :: rest =>
    { address := Config.progBase + offset, instr := decode (wordOf hi lo) } :: sweepFrom (offset + 2) rest
  | _, _ => []

/-- `disassemble(buffer)` (R210). -/
def disassemble (image : List Byte) : List Record := sweepFrom 0 image

/-! ## The text (R78, R214) -/

/-- A capital hexadecimal digit. -/
def hexDigit (d : Nat) : Char :=
  ['0', '1', '2', '3', '4', '5', '6', '7', '8', '9', 'A', 'B', 'C', 'D', 'E', 'F'].getD d '?'

/-- The low `k` hexadecimal digits of a number. -/
def hexDigits : Nat → Nat → List Char
  | 0, _ => []
  | k + 1, v => hexDigits k (v / 16) ++ [hexDigit (v % 16)]

/-- `0x` and `k` digits. -/
def hexText (k v : Nat) : List Char := ['0', 'x'] ++ hexDigits k v

/-- `V` and one digit. -/
def regText (x : Reg) : List Char := ['V', hexDigit x.val]

/-- `nnn`: `0x` and three digits. -/
def addrText (nnn : Addr12) : List Char := hexText 3 nnn.toNat

/-- `kk`: `0x` and two digits. -/
def byteText (kk : Byte) : List Char := hexText 2 kk.toNat

/-- The mnemonic and the operand texts of an instruction (R74, R78); the `y` of SHR and SHL is not printed (R214). -/
def textParts : Instr → List Char × List (List Char)
  | .cls => (['C', 'L', 'S'], [])
  | .ret => (['R', 'E', 'T'], [])
  | .hires => (['H', 'I', 'R', 'E', 'S'], [])
  | .jp nnn => (['J', 'P'], [addrText nnn])
  | .call nnn => (['C', 'A', 'L', 'L'], [addrText nnn])
  | .seImm x kk => (['S', 'E'], [regText x, byteText kk])
  | .sneImm x kk => (['S', 'N', 'E'], [regText x, byteText kk])
  | .seReg x y => (['S', 'E'], [regText x, regText y])
  | .ldImm x kk => (['L', 'D'], [regText x, byteText kk])
  | .addImm x kk => (['A', 'D', 'D'], [regText x, byteText kk])
  | .ldReg x y => (['L', 'D'], [regText x, regText y])
  | .orReg x y => (['O', 'R'], [regText x, regText y])
  | .andReg x y => (['A', 'N', 'D'], [regText x, regText y])
  | .xorReg x y => (['X', 'O', 'R'], [regText x, regText y])
  | .addReg x y => (['A', 'D', 'D'], [regText x, regText y])
  | .subReg x y => (['S', 'U', 'B'], [regText x, regText y])
  | .shr x _ => (['S', 'H', 'R'], [regText x])
  | .subnReg x y => (['S', 'U', 'B', 'N'], [regText x, regText y])
  | .shl x _ => (['S', 'H', 'L'], [regText x])
  | .sneReg x y => (['S', 'N', 'E'], [regText x, regText y])
  | .ldIndex nnn => (['L', 'D'], [['I'], addrText nnn])
  | .jpV0 nnn => (['J', 'P'], [['V', '0'], addrText nnn])
  | .rnd x kk => (['R', 'N', 'D'], [regText x, byteText kk])
  | .drw x y n => (['D', 'R', 'W'], [regText x, regText y, hexText 1 n.toNat])
  | .skp x => (['S', 'K', 'P'], [regText x])
  | .sknp x => (['S', 'K', 'N', 'P'], [regText x])
  | .ldFromDelay x => (['L', 'D'], [regText x, ['D', 'T']])
  | .ldKey x => (['L', 'D'], [regText x, ['K']])
  | .ldDelay x => (['L', 'D'], [['D', 'T'], regText x])
  | .ldSound x => (['L', 'D'], [['S', 'T'], regText x])
  | .addIndex x => (['A', 'D', 'D'], [['I'], regText x])
  | .ldFont x => (['L', 'D'], [['F'], regText x])
  | .ldBcd x => (['L', 'D'], [['B'], regText x])
  | .dump x => (['L', 'D'], [['[', 'I', ']'], regText x])
  | .load x => (['L', 'D'], [regText x, ['[', 'I', ']']])
  | .unsupported w => (['U', 'N', 'S', 'U', 'P', 'P', 'O', 'R', 'T', 'E', 'D'], [hexText 4 w.toNat])

/-- Operands separated by a comma and one space. -/
def joinOperands : List (List Char) → List Char
  | [] => []
  | [o] => o
  | o :: os => o ++ [',', ' '] ++ joinOperands os

/-- The characters of an instruction's text: the mnemonic, and where there are operands one space and the operands
(R78). -/
def instrChars (i : Instr) : List Char :=
  match textParts i with
  | (m, []) => m
  | (m, os) => m ++ [' '] ++ joinOperands os

/-- The characters of a record's address: `0x` and three digits (R214); an address that needs more is a free
value (log 12). -/
def addressChars (a : Nat) : List Char :=
  if a < 0x1000 then hexText 3 a else Config.wideAddressText a

/-- The text of a record: address, colon, one space, instruction (R214). -/
def recordText (r : Record) : String :=
  String.ofList (addressChars r.address ++ [':', ' '] ++ instrChars r.instr)

end Sys2Proof.Machine
end

