-- ==== Sys2Proof/Machine/OpcodeTable.lean ====
section
/-! DEFINITION. The opcode map as spec/30_encoding.md R74 prints it, one (mask, match) pair per row in the table's
order, and the row of an instruction. The decoder of Decode.lean is held to it by a statement. -/

namespace Sys2Proof.Machine

/-- The 35 rows (mask, match) of R74. -/
def opcodeMap : List (Word × Word) :=
  [ (0xFFFF#16, 0x00E0#16), (0xFFFF#16, 0x00EE#16), (0xFFFF#16, 0x00FF#16),
    (0xF000#16, 0x1000#16), (0xF000#16, 0x2000#16), (0xF000#16, 0x3000#16), (0xF000#16, 0x4000#16),
    (0xF00F#16, 0x5000#16), (0xF000#16, 0x6000#16), (0xF000#16, 0x7000#16) ]
  ++
  [ (0xF00F#16, 0x8000#16), (0xF00F#16, 0x8001#16), (0xF00F#16, 0x8002#16), (0xF00F#16, 0x8003#16),
    (0xF00F#16, 0x8004#16), (0xF00F#16, 0x8005#16), (0xF00F#16, 0x8006#16), (0xF00F#16, 0x8007#16),
    (0xF00F#16, 0x800E#16), (0xF00F#16, 0x9000#16) ]
  ++
  [ (0xF000#16, 0xA000#16), (0xF000#16, 0xB000#16), (0xF000#16, 0xC000#16), (0xF000#16, 0xD000#16),
    (0xF0FF#16, 0xE09E#16), (0xF0FF#16, 0xE0A1#16) ]
  ++
  [ (0xF0FF#16, 0xF007#16), (0xF0FF#16, 0xF00A#16), (0xF0FF#16, 0xF015#16), (0xF0FF#16, 0xF018#16),
    (0xF0FF#16, 0xF01E#16), (0xF0FF#16, 0xF029#16), (0xF0FF#16, 0xF033#16), (0xF0FF#16, 0xF055#16),
    (0xF0FF#16, 0xF065#16) ]

/-- The row of an instruction, counted from 0 in R74's order; 35 is the fallback row. -/
def rowOf : Instr → Nat
  | .cls => 0
  | .ret => 1
  | .hires => 2
  | .jp _ => 3
  | .call _ => 4
  | .seImm _ _ => 5
  | .sneImm _ _ => 6
  | .seReg _ _ => 7
  | .ldImm _ _ => 8
  | .addImm _ _ => 9
  | .ldReg _ _ => 10
  | .orReg _ _ => 11
  | .andReg _ _ => 12
  | .xorReg _ _ => 13
  | .addReg _ _ => 14
  | .subReg _ _ => 15
  | .shr _ _ => 16
  | .subnReg _ _ => 17
  | .shl _ _ => 18
  | .sneReg _ _ => 19
  | .ldIndex _ => 20
  | .jpV0 _ => 21
  | .rnd _ _ => 22
  | .drw _ _ _ => 23
  | .skp _ => 24
  | .sknp _ => 25
  | .ldFromDelay _ => 26
  | .ldKey _ => 27
  | .ldDelay _ => 28
  | .ldSound _ => 29
  | .addIndex _ => 30
  | .ldFont _ => 31
  | .ldBcd _ => 32
  | .dump _ => 33
  | .load _ => 34
  | .unsupported _ => 35

/-- Whether a word matches a row: `(w & mask) = match` (R74). -/
def matchesRow (w : Word) (row : Word × Word) : Bool := w &&& row.1 == row.2

end Sys2Proof.Machine
end

