-- ==== Sys2Proof/Safety.lean ====
section
/-! DEFINITION. The terms claims use: the parts of the state and what a step leaves unchanged, what taking a fault
is, what a completed instruction reports, and the machine's invariant. -/

namespace Sys2Proof.Machine

/-- The parts of the state; memory byte by byte, registers and keys one by one. -/
inductive Part where
  | reg (x : Reg)
  | index
  | pc
  | stack
  | dt
  | st
  | display
  | key (k : Key)
  | wait
  | ctrl
  | err
  | byte (a : Nat)
  | notes
  | agenda
  | draws
  | instrDelay
  deriving DecidableEq, Repr

/-- A part is the same in two states. -/
def Part.same (s t : State) : Part → Prop
  | .reg x => t.reg x = s.reg x
  | .index => t.index = s.index
  | .pc => t.pc = s.pc
  | .stack => t.stack = s.stack
  | .dt => t.dt = s.dt
  | .st => t.st = s.st
  | .display => t.display = s.display
  | .key k => t.key k = s.key k
  | .wait => t.wait = s.wait
  | .ctrl => t.ctrl = s.ctrl
  | .err => t.err = s.err
  | .byte a => t.mem.read a = s.mem.read a
  | .notes => t.notes = s.notes
  | .agenda => t.agenda = s.agenda
  | .draws => t.draws = s.draws
  | .instrDelay => t.instrDelayMs = s.instrDelayMs

/-- From `s` to `t` at most the listed parts differ: every other register, flag, key, special register and every
other byte of memory is unchanged. -/
def OnlyChanges (s t : State) (parts : List Part) : Prop :=
  ∀ p, p ∉ parts → p.same s t

/-- The bytes of memory at `a`, `a + 1`, ..., `n` of them. -/
def bytesAt (a n : Nat) : List Part := (List.range n).map fun d => .byte (a + d)

/-- Fault entry as spec/60_exceptions.md R239 describes it. -/
def TakesFault (s t : State) (kind : FaultKind) (info : Nat) : Prop :=
  t.err = some { kind := kind, info := info, pc := some s.pc } ∧
  t.ctrl = .stopped ∧
  t.notes = s.notes ++ [.error { kind := kind, info := info, pc := some s.pc }, .stopped] ∧
  OnlyChanges s t [.err, .ctrl, .notes]

/-- The notifications of a completed instruction that wrote the registers `regs`, in the order of
spec/61_host_interface.md R281. -/
def Reports (s t : State) (regs : List Reg) (others : List Notification) : Prop :=
  t.notes = s.notes ++
    (regs.map (fun r => .registerChanged r (t.reg r)) ++ others ++ [.pcChanged t.pc])

/-- A run that has not faulted (spec/60_exceptions.md R252). -/
def State.NoFault (s : State) : Prop := s.err = none

/-- An address an instruction can be fetched from: even, at most 0xFFE (spec/10_state.md R23). -/
def Fetchable (a : Word) : Prop := a.toNat % 2 = 0 ∧ a.toNat ≤ 0xFFE

/-- A parked or latched LD Vx,K: `PC` addresses that instruction (spec/46_input.md R193). -/
def State.ParkedAtItsInstruction (s : State) : Prop :=
  match s.wait with
  | .notWaiting => True
  | .waiting x => Fetchable s.pc ∧ decode (s.mem.word s.pc.toNat) = .ldKey x
  | .keyLatched x _ => Fetchable s.pc ∧ decode (s.mem.word s.pc.toNat) = .ldKey x

/-- The machine's invariant: memory in canonical form; at most 16 return addresses (R26), each even and at most
0x1000, and `PC` at most 0x10FE (R24); a recorded fault means `Stopped` (R32); a parked LD Vx,K at `PC` (R193). -/
structure State.Inv (s : State) : Prop where
  memory : s.mem.wf
  depth : s.stack.length ≤ Config.stackDepth
  returns : ∀ a ∈ s.stack, a.toNat % 2 = 0 ∧ a.toNat ≤ 0x1000
  pcBound : s.pc.toNat ≤ 0x10FE
  faultStops : s.err ≠ none → s.ctrl = .stopped
  parked : s.ParkedAtItsInstruction

end Sys2Proof.Machine
end

