-- ==== Sys2Proof/Certificates/Slice0/Obligations.lean ====
section
/-! DEFINITION. The statements for the provers. Each docstring names the rules of spec/ it formalises. -/

open Sys2Proof Sys2Proof.Machine

namespace Sys2Proof.Claims

/-! ## Forms shared by the statements -/

/-- The instruction completes in every state: it writes `value` to `V[x]` and `next` to `PC`, and changes nothing
else but the output stream, of which `InstructionsReportWhatTheyWrite` says what it gets. -/
def LoadsRegister (i : Instr) (x : Reg) (value : State → Nat) : Prop :=
  ∀ s, ∃ t, exec i s = .next t ∧ (t.reg x).toNat = value s ∧ t.pc = s.pc + 2#16 ∧
    OnlyChanges s t [.reg x, .pc, .notes]

/-- The instruction completes in every state: `value` to `V[x]` (unless it is VF), 1 or 0 to VF by `flag`, `next` to
`PC`, and nothing else. -/
def LoadsRegisterAndFlag (i : Instr) (x : Reg) (value : State → Nat) (flag : State → Prop) : Prop :=
  ∀ s, ∃ t, exec i s = .next t ∧ (x ≠ 15 → (t.reg x).toNat = value s) ∧
    (flag s → t.reg 15 = 0x01#8) ∧ (¬ flag s → t.reg 15 = 0x00#8) ∧ t.pc = s.pc + 2#16 ∧
    OnlyChanges s t [.reg x, .reg 15, .pc, .notes]

/-- The instruction completes in every state: it writes `target` to `PC` and nothing else. -/
def TransfersTo (i : Instr) (target : State → Nat) : Prop :=
  ∀ s, ∃ t, exec i s = .next t ∧ t.pc.toNat = target s ∧
    OnlyChanges s t [.pc, .notes]

/-- The instruction completes in every state as a skip: `PC + 4` when the condition holds, else `PC + 2`. -/
def SkipsWhen (i : Instr) (condition : State → Prop) : Prop :=
  ∀ s, ∃ t, exec i s = .next t ∧ (condition s → t.pc = s.pc + 4#16) ∧ (¬ condition s → t.pc = s.pc + 2#16) ∧
    OnlyChanges s t [.pc, .notes]

/-- The instruction completes in every state: it writes `value` to `I`, `next` to `PC`, and nothing else. -/
def LoadsIndex (i : Instr) (value : State → Nat) : Prop :=
  ∀ s, ∃ t, exec i s = .next t ∧ t.index.toNat = value s ∧ t.pc = s.pc + 2#16 ∧
    OnlyChanges s t [.index, .pc, .notes]

/-- Instructions executed one after the other. -/
def execAll : List Instr → State → Result
  | [], s => .next s
  | i :: is, s =>
    match exec i s with
    | .next t => execAll is t
    | .fault r => .fault r
    | .refused r => .refused r

/-- `n` ticks. -/
def ticks : Nat → State → State
  | 0, s => s
  | n + 1, s => ticks n (tick s)

/-- How many bytes at `I` an instruction reads or writes (spec/43_memory_instructions.md R157). -/
def bytesTouched : Instr → Nat
  | .drw _ _ n => n.toNat
  | .ldBcd _ => 3
  | .dump x => x.val + 1
  | .load x => x.val + 1
  | _ => 0

/-- The pixel at row `r`, column `c` lies under a set bit of the `n`-row sprite at `I` whose top left pixel is at
column `V[x]`, row `V[y]`, each coordinate modulo the dimensions (spec/44_draw.md R172). -/
def Covered (s : State) (x y : Reg) (n : Nat) (r c : Nat) : Prop :=
  ∃ i < n, ∃ k < 8, (s.mem.read (s.index.toNat + i)).getLsbD (7 - k) = true ∧
    r = ((s.reg y).toNat + i) % s.display.height ∧ c = ((s.reg x).toNat + k) % s.display.width

/-- The set pixels of a display. -/
def setPixels (d : Display) : Set (Nat × Nat) :=
  {q | q.1 < d.height ∧ q.2 < d.width ∧ d.pixel q.1 q.2 = true}

/-- The general registers an instruction may write (spec/10_state.md R21, R22). -/
def registersWritten : Instr → List Reg
  | .ldImm x _ => [x]
  | .addImm x _ => [x]
  | .ldReg x _ => [x]
  | .orReg x _ => [x]
  | .andReg x _ => [x]
  | .xorReg x _ => [x]
  | .rnd x _ => [x]
  | .ldFromDelay x => [x]
  | .addReg x _ => [x, 15]
  | .subReg x _ => [x, 15]
  | .subnReg x _ => [x, 15]
  | .shr x _ => [x, 15]
  | .shl x _ => [x, 15]
  | .drw _ _ _ => [15]
  | .load x => (List.finRange 16).filter fun r => r ≤ x
  | _ => []

/-- What an instruction reports besides registers and `PC` (spec/61_host_interface.md R281, items 2 to 4). -/
def otherReports (i : Instr) (t : State) : List Notification :=
  match i with
  | .ldIndex _ => [.indexChanged t.index]
  | .addIndex _ => [.indexChanged t.index]
  | .ldFont _ => [.indexChanged t.index]
  | .ldDelay _ => [.delayTimerChanged t.dt]
  | .ldSound _ => [.soundTimerChanged t.st]
  | .drw _ _ _ => [.screenRefresh t.display t.display.width t.display.height]
  | _ => []

/-- The next agent step is not a reset request of the host. -/
def NoResetNext (s : State) : Prop := ∀ image, s.agenda.head? ≠ some (.host (.reset image))

end Sys2Proof.Claims

open Sys2Proof.Claims

/-! ## Encoding -/

/-- Tier 3. Every well-formed instruction is what its encoding decodes to, as a word and as bytes in memory order
(spec/30_encoding.md R70 to R76). -/
def Obligations.EncodedWordDecodesToItsInstruction : Prop :=
  ∀ i : Instr, i.WellFormed →
    decode (encode i) = i ∧ ∀ rest, decodeBytes (encodeBytes i ++ rest) = .ok (i, rest)

/-- Every word decodes to a well-formed instruction that encodes to it: no bit is dropped, the ignored `y` of SHR
and SHL included (R70, R76). -/
def Obligations.DecodedInstructionEncodesToItsWord : Prop :=
  ∀ w : Word, (decode w).WellFormed ∧ encode (decode w) = w

/-- A word decodes to the instruction of row `k` exactly if it matches row `k` of the map, so at most one row matches
it; and it is unsupported exactly if no row matches (R74, R75). -/
def Obligations.DecodeFollowsTheOpcodeMap : Prop :=
  ∀ w : Word,
    (∀ k row, opcodeMap[k]? = some row → (w &&& row.1 = row.2 ↔ rowOf (decode w) = k)) ∧
    (decode w = .unsupported w ↔ ∀ row ∈ opcodeMap, w &&& row.1 ≠ row.2)

/-- The unsupported words are exactly those of R75's table of groups. -/
def Obligations.UnsupportedWordsAreThoseOfTheGroups : Prop :=
  ∀ w : Word, decode w = .unsupported w ↔
    (w.toNat < 0x1000 ∧ w.toNat ≠ 0x00E0 ∧ w.toNat ≠ 0x00EE ∧ w.toNat ≠ 0x00FF) ∨
    (w.toNat / 0x1000 = 0x5 ∧ w.toNat % 0x10 ≠ 0) ∨
    (w.toNat / 0x1000 = 0x8 ∧ w.toNat % 0x10 ∈ [0x8, 0x9, 0xA, 0xB, 0xC, 0xD, 0xF]) ∨
    (w.toNat / 0x1000 = 0x9 ∧ w.toNat % 0x10 ≠ 0) ∨
    (w.toNat / 0x1000 = 0xE ∧ w.toNat % 0x100 ≠ 0x9E ∧ w.toNat % 0x100 ≠ 0xA1) ∨
    (w.toNat / 0x1000 = 0xF ∧
      w.toNat % 0x100 ∉ [0x07, 0x0A, 0x15, 0x18, 0x1E, 0x29, 0x33, 0x55, 0x65])

/-- Words written out in spec/95_test_vectors.md 2.1, one or more of each of the sixteen groups, decode as listed
there. -/
def Obligations.ListedWordsDecodeAsListed : Prop :=
  decode 0x00E0 = .cls ∧ decode 0x1228 = .jp 0x228 ∧ decode 0x2FFF = .call 0xFFF ∧
  decode 0x3A07 = .seImm 10 0x07 ∧ decode 0x4A07 = .sneImm 10 0x07 ∧ decode 0x5AB0 = .seReg 10 11 ∧
  decode 0x5AB1 = .unsupported 0x5AB1 ∧ decode 0x6A2F = .ldImm 10 0x2F ∧ decode 0x7305 = .addImm 3 0x05 ∧
  decode 0x812E = .shl 1 2 ∧ decode 0x9120 = .sneReg 1 2 ∧ decode 0xA2F0 = .ldIndex 0x2F0 ∧
  decode 0xB300 = .jpV0 0x300 ∧ decode 0xC3FF = .rnd 3 0xFF ∧ decode 0xD12F = .drw 1 2 0xF ∧
  decode 0xE1A1 = .sknp 1 ∧ decode 0xF165 = .load 1

/-! ## Arithmetic, moves, logic -/

/-- R101, R102, R103: LD Vx,kk; ADD Vx,kk (wrapping, no flag); LD Vx,Vy. -/
def Obligations.MovesAndImmediateAddWriteOneRegister : Prop :=
  (∀ (x : Reg) (kk : Byte), decode (BitVec.ofNat 16 (0x6000 + 0x100 * x.val + kk.toNat)) = .ldImm x kk ∧
    LoadsRegister (.ldImm x kk) x fun _ => kk.toNat) ∧
  (∀ (x : Reg) (kk : Byte), decode (BitVec.ofNat 16 (0x7000 + 0x100 * x.val + kk.toNat)) = .addImm x kk ∧
    LoadsRegister (.addImm x kk) x fun s => ((s.reg x).toNat + kk.toNat) % 256) ∧
  (∀ x y : Reg, decode (BitVec.ofNat 16 (0x8000 + 0x100 * x.val + 0x10 * y.val)) = .ldReg x y ∧
    LoadsRegister (.ldReg x y) x fun s => (s.reg y).toNat)

/-- R104: ADD Vx,Vy, VF the carry out of bit 7, also for `x = 15`. -/
def Obligations.AddRegistersWrapsAndSetsCarry : Prop :=
  ∀ x y : Reg, decode (BitVec.ofNat 16 (0x8004 + 0x100 * x.val + 0x10 * y.val)) = .addReg x y ∧
    LoadsRegisterAndFlag (.addReg x y) x (fun s => ((s.reg x).toNat + (s.reg y).toNat) % 256)
      fun s => 256 ≤ (s.reg x).toNat + (s.reg y).toNat

/-- R105, R106: SUB and SUBN, VF is 1 when there is no borrow. -/
def Obligations.SubtractsWrapAndSetNoBorrow : Prop :=
  (∀ x y : Reg, decode (BitVec.ofNat 16 (0x8005 + 0x100 * x.val + 0x10 * y.val)) = .subReg x y ∧
    LoadsRegisterAndFlag (.subReg x y) x (fun s => ((s.reg x).toNat + 256 - (s.reg y).toNat) % 256)
      fun s => (s.reg y).toNat ≤ (s.reg x).toNat) ∧
  (∀ x y : Reg, decode (BitVec.ofNat 16 (0x8007 + 0x100 * x.val + 0x10 * y.val)) = .subnReg x y ∧
    LoadsRegisterAndFlag (.subnReg x y) x (fun s => ((s.reg y).toNat + 256 - (s.reg x).toNat) % 256)
      fun s => (s.reg x).toNat ≤ (s.reg y).toNat)

/-- SHR and SHL in place, VF the bit shifted out, `y` without effect: the spec's own decision D5 for what the source
leaves open (R107, R108; log 9). -/
def Obligations.ShiftsAreInPlaceAndSetTheBitShiftedOut : Prop :=
  (∀ x y : Reg, decode (BitVec.ofNat 16 (0x8006 + 0x100 * x.val + 0x10 * y.val)) = .shr x y ∧
    LoadsRegisterAndFlag (.shr x y) x (fun s => (s.reg x).toNat / 2) fun s => (s.reg x).toNat % 2 = 1) ∧
  (∀ x y : Reg, decode (BitVec.ofNat 16 (0x800E + 0x100 * x.val + 0x10 * y.val)) = .shl x y ∧
    LoadsRegisterAndFlag (.shl x y) x (fun s => 2 * (s.reg x).toNat % 256) fun s => 128 ≤ (s.reg x).toNat)

/-- RND writes the drawn byte under the mask, uses up one draw, and nothing else: the byte is the free value
`Config.drawByte` of the draws used up so far, of which nothing can be proved (R109, R10, decision D23; the free value
and the count of draws are the model's form, log 4). -/
def Obligations.RandomWritesAByteUnderTheMask : Prop :=
  ∀ (x : Reg) (kk : Byte), decode (BitVec.ofNat 16 (0xC000 + 0x100 * x.val + kk.toNat)) = .rnd x kk ∧
    ∀ s : State, ∃ t, exec (.rnd x kk) s = .next t ∧ t.reg x = Config.drawByte s.draws &&& kk ∧
      t.reg x &&& ~~~kk = 0x00#8 ∧ t.draws = s.draws + 1 ∧ t.pc = s.pc + 2#16 ∧
      OnlyChanges s t [.reg x, .pc, .notes, .draws]

/-- R121, R122, R123: OR, AND, XOR bit by bit; no flag is written. -/
def Obligations.LogicWorksBitByBit : Prop :=
  ∀ x y : Reg,
    decode (BitVec.ofNat 16 (0x8001 + 0x100 * x.val + 0x10 * y.val)) = .orReg x y ∧
    decode (BitVec.ofNat 16 (0x8002 + 0x100 * x.val + 0x10 * y.val)) = .andReg x y ∧
    decode (BitVec.ofNat 16 (0x8003 + 0x100 * x.val + 0x10 * y.val)) = .xorReg x y ∧
    ∀ s, ∃ t u v, exec (.orReg x y) s = .next t ∧ exec (.andReg x y) s = .next u ∧
      exec (.xorReg x y) s = .next v ∧
      (∀ k < 8, (t.reg x).getLsbD k = ((s.reg x).getLsbD k || (s.reg y).getLsbD k)) ∧
      (∀ k < 8, (u.reg x).getLsbD k = ((s.reg x).getLsbD k && (s.reg y).getLsbD k)) ∧
      (∀ k < 8, (v.reg x).getLsbD k = ((s.reg x).getLsbD k ^^ (s.reg y).getLsbD k)) ∧
      ∀ q ∈ [t, u, v], q.pc = s.pc + 2#16 ∧ OnlyChanges s q [.reg x, .pc, .notes]

/-! ## Control flow -/

/-- R131: JP nnn writes its target whatever it is. -/
def Obligations.JumpWritesItsTarget : Prop :=
  ∀ nnn : Addr12, decode (BitVec.ofNat 16 (0x1000 + nnn.toNat)) = .jp nnn ∧
    TransfersTo (.jp nnn) fun _ => nnn.toNat

/-- JP V0,nnn adds V0 to the address and does not reduce the sum; that the offset register is V0 is the spec's own
decision D9 (log 9). -/
def Obligations.JumpWithOffsetAddsV0 : Prop :=
  ∀ nnn : Addr12, decode (BitVec.ofNat 16 (0xB000 + nnn.toNat)) = .jpV0 nnn ∧
    TransfersTo (.jpV0 nnn) fun s => nnn.toNat + (s.reg 0).toNat

/-- R133: CALL pushes the address of the following instruction and jumps; on a stack that already holds 16 entries
it takes `StackOverflow`. More than 16 entries never occur (a statement of its own); there the model also takes the
fault (log 11). -/
def Obligations.CallPushesOrOverflows : Prop :=
  ∀ nnn : Addr12, decode (BitVec.ofNat 16 (0x2000 + nnn.toNat)) = .call nnn ∧
    ∀ s : State,
      (s.stack.length < 16 → ∃ t, exec (.call nnn) s = .next t ∧ t.stack = s.stack ++ [s.pc + 2#16] ∧
        t.pc.toNat = nnn.toNat ∧ OnlyChanges s t [.stack, .pc, .notes]) ∧
      (s.stack.length = 16 → ∃ t, exec (.call nnn) s = .next t ∧ TakesFault s t .stackOverflow s.pc.toNat)

/-- R134: RET pops the last entry into `PC`; on an empty stack it takes `StackUnderflow`. -/
def Obligations.ReturnPopsOrUnderflows : Prop :=
  decode 0x00EE = .ret ∧
    (∀ s below top, s.stack = below ++ [top] → ∃ t, exec .ret s = .next t ∧ t.stack = below ∧ t.pc = top ∧
      OnlyChanges s t [.stack, .pc, .notes]) ∧
    (∀ s, s.stack = [] → ∃ t, exec .ret s = .next t ∧ TakesFault s t .stackUnderflow s.pc.toNat)

/-- R135 to R138: the four register skips; a nonzero low nibble is no register-to-register skip. -/
def Obligations.RegisterSkipsFollowTheirCondition : Prop :=
  (∀ (x : Reg) (kk : Byte), decode (BitVec.ofNat 16 (0x3000 + 0x100 * x.val + kk.toNat)) = .seImm x kk ∧
    SkipsWhen (.seImm x kk) fun s => s.reg x = kk) ∧
  (∀ (x : Reg) (kk : Byte), decode (BitVec.ofNat 16 (0x4000 + 0x100 * x.val + kk.toNat)) = .sneImm x kk ∧
    SkipsWhen (.sneImm x kk) fun s => s.reg x ≠ kk) ∧
  (∀ x y : Reg, decode (BitVec.ofNat 16 (0x5000 + 0x100 * x.val + 0x10 * y.val)) = .seReg x y ∧
    (SkipsWhen (.seReg x y) fun s => s.reg x = s.reg y) ∧
    ∀ n : Nibble, n ≠ 0 → ∃ w, decode (BitVec.ofNat 16 (0x5000 + 0x100 * x.val + 0x10 * y.val + n.toNat)) =
      .unsupported w) ∧
  (∀ x y : Reg, decode (BitVec.ofNat 16 (0x9000 + 0x100 * x.val + 0x10 * y.val)) = .sneReg x y ∧
    (SkipsWhen (.sneReg x y) fun s => s.reg x ≠ s.reg y) ∧
    ∀ n : Nibble, n ≠ 0 → ∃ w, decode (BitVec.ofNat 16 (0x9000 + 0x100 * x.val + 0x10 * y.val + n.toNat)) =
      .unsupported w)

/-- Up to 16 nested calls from an empty stack, followed by as many returns, come back to the instruction after the
first call with an empty stack, without a fault, and after 16 calls one more takes `StackOverflow` (R133, R134,
spec/95_test_vectors.md S5). -/
def Obligations.NestedCallsUnwind : Prop :=
  ∀ (targets : List Addr12) (s : State), targets ≠ [] → targets.length ≤ 16 → s.stack = [] →
    ∃ t u, execAll (targets.map .call) s = .next t ∧ t.stack.length = targets.length ∧
      execAll (List.replicate targets.length .ret) t = .next u ∧
      u.stack = [] ∧ u.pc = s.pc + 2#16 ∧ u.err = s.err ∧
      (targets.length = 16 → ∀ nnn, ∃ f, exec (.call nnn) t = .next f ∧
        TakesFault t f .stackOverflow t.pc.toNat)

/-! ## Index register and memory -/

/-- R151: LD I,nnn. -/
def Obligations.IndexIsLoadedWithAnAddress : Prop :=
  ∀ nnn : Addr12, decode (BitVec.ofNat 16 (0xA000 + nnn.toNat)) = .ldIndex nnn ∧
    LoadsIndex (.ldIndex nnn) fun _ => nnn.toNat

/-- ADD I,Vx is modulo 65536 without a flag (the spec's decision D8); LD F,Vx points at the glyph of the low nibble
(decision D10; log 9). -/
def Obligations.IndexIsAddedToAndPointedAtGlyphs : Prop :=
  (∀ x : Reg, decode (BitVec.ofNat 16 (0xF01E + 0x100 * x.val)) = .addIndex x ∧
    LoadsIndex (.addIndex x) fun s => (s.index.toNat + (s.reg x).toNat) % 65536) ∧
  (∀ x : Reg, decode (BitVec.ofNat 16 (0xF029 + 0x100 * x.val)) = .ldFont x ∧
    LoadsIndex (.ldFont x) fun s => 5 * ((s.reg x).toNat % 16))

/-- R154: LD B,Vx stores the hundreds, tens and ones at `I`, `I + 1`, `I + 2`; if one of them is above 0xFFF it takes
`AddressOutOfRange` and stores nothing. -/
def Obligations.DecimalDigitsAreStored : Prop :=
  ∀ x : Reg, decode (BitVec.ofNat 16 (0xF033 + 0x100 * x.val)) = .ldBcd x ∧
    ∀ s : State,
      (s.index.toNat ≤ 0xFFD → ∃ t, exec (.ldBcd x) s = .next t ∧
        (t.mem.read s.index.toNat).toNat = (s.reg x).toNat / 100 ∧
        (t.mem.read (s.index.toNat + 1)).toNat = (s.reg x).toNat / 10 % 10 ∧
        (t.mem.read (s.index.toNat + 2)).toNat = (s.reg x).toNat % 10 ∧
        t.pc = s.pc + 2#16 ∧ OnlyChanges s t (bytesAt s.index.toNat 3 ++ [.pc, .notes])) ∧
      (0xFFD < s.index.toNat → ∃ t, exec (.ldBcd x) s = .next t ∧
        TakesFault s t .addressOutOfRange (max s.index.toNat 0x1000))

/-- R155: LD [I],Vx stores V0 to Vx at `I` upward, `I` unchanged; out of range it takes `AddressOutOfRange` and
stores nothing. -/
def Obligations.RegisterDumpStoresV0ToVx : Prop :=
  ∀ x : Reg, decode (BitVec.ofNat 16 (0xF055 + 0x100 * x.val)) = .dump x ∧
    ∀ s : State,
      (s.index.toNat + x.val ≤ 0xFFF → ∃ t, exec (.dump x) s = .next t ∧
        (∀ r ≤ x, t.mem.read (s.index.toNat + r.val) = s.reg r) ∧ t.pc = s.pc + 2#16 ∧
        OnlyChanges s t (bytesAt s.index.toNat (x.val + 1) ++ [.pc, .notes])) ∧
      (0xFFF < s.index.toNat + x.val → ∃ t, exec (.dump x) s = .next t ∧
        TakesFault s t .addressOutOfRange (max s.index.toNat 0x1000))

/-- R156: LD Vx,[I] loads V0 to Vx from `I` upward, registers above `x`, `I` and memory unchanged; out of range it
takes `AddressOutOfRange` and loads nothing. -/
def Obligations.RegisterLoadReadsV0ToVx : Prop :=
  ∀ x : Reg, decode (BitVec.ofNat 16 (0xF065 + 0x100 * x.val)) = .load x ∧
    ∀ s : State,
      (s.index.toNat + x.val ≤ 0xFFF → ∃ t, exec (.load x) s = .next t ∧
        (∀ r ≤ x, t.reg r = s.mem.read (s.index.toNat + r.val)) ∧ t.pc = s.pc + 2#16 ∧
        OnlyChanges s t (((List.finRange 16).filter fun r => r ≤ x).map .reg ++ [.pc, .notes])) ∧
      (0xFFF < s.index.toNat + x.val → ∃ t, exec (.load x) s = .next t ∧
        TakesFault s t .addressOutOfRange (max s.index.toNat 0x1000))

/-- R55, the spec's decision D4 (log 9): an instruction that touches `m >= 1` bytes at `I` with one above 0xFFF takes
`AddressOutOfRange` at the lowest such address and writes nothing else; the ones in range, and those that touch none,
do not take that fault. -/
def Obligations.WholeRangeIsCheckedBeforeAnyWrite : Prop :=
  ∀ (i : Instr) (s : State),
    (1 ≤ bytesTouched i → 0xFFF < s.index.toNat + bytesTouched i - 1 →
      ∃ t, exec i s = .next t ∧ TakesFault s t .addressOutOfRange (max s.index.toNat 0x1000)) ∧
    ((bytesTouched i = 0 ∨ s.index.toNat + bytesTouched i - 1 ≤ 0xFFF) → s.err = none →
      ∃ t, exec i s = .next t ∧ ∀ r, t.err = some r → r.kind ≠ .addressOutOfRange)

/-- A fetch from bytes that LD [I],Vx stored reads the stored bytes, with nothing in between (R61, which the spec
marks as derived; the byte order is decision D1). -/
def Obligations.FetchSeesStoredBytesAtOnce : Prop :=
  ∀ (x : Reg) (s : State), s.index.toNat + x.val ≤ 0xFFF → ∃ t, exec (.dump x) s = .next t ∧
    ∀ r r' : Reg, r' ≤ x → r'.val = r.val + 1 →
      ∀ pc : Word, pc.toNat = s.index.toNat + r.val → pc.toNat % 2 = 0 →
        fetch (t.setPc pc) = .ok (BitVec.ofNat 16 (0x100 * (s.reg r).toNat + (s.reg r').toNat))

/-! ## Display -/

/-- CLS clears every pixel of the active mode and keeps the mode; HIRES switches `Standard` to a cleared 128 by 64
buffer and in `Extended` changes only `PC`; neither writes VF or emits a screen-refresh (R171, R201, with the spec's
decisions D14 and D22; log 9). -/
def Obligations.ClearAndModeSwitch : Prop :=
  decode 0x00E0 = .cls ∧ decode 0x00FF = .hires ∧
  (∀ s, ∃ t, exec .cls s = .next t ∧ t.display.mode = s.display.mode ∧
    (∀ r < s.display.height, ∀ c < s.display.width, t.display.pixel r c = false) ∧ t.pc = s.pc + 2#16 ∧
    t.notes = s.notes ++ [.pcChanged t.pc] ∧ OnlyChanges s t [.display, .pc, .notes]) ∧
  (∀ s, ∃ t, exec .hires s = .next t ∧ t.display.mode = .extended ∧ t.display.width = 128 ∧ t.display.height = 64 ∧
    (s.display.mode = .standard → ∀ r < 64, ∀ c < 128, t.display.pixel r c = false) ∧
    (s.display.mode = .extended → t.display = s.display) ∧ t.pc = s.pc + 2#16 ∧
    t.notes = s.notes ++ [.pcChanged t.pc] ∧ OnlyChanges s t [.display, .pc, .notes])

/-- R172: DRW flips exactly the pixels under the set bits of the sprite, each coordinate modulo the dimensions of the
active mode; VF is 1 exactly if one of them was set; one screen-refresh with the new buffer; with a sprite byte above
0xFFF it takes `AddressOutOfRange` instead. That every pixel wraps is the spec's decision D12, what is reported D22
(log 9). -/
def Obligations.DrawFlipsExactlyTheCoveredPixels : Prop :=
  ∀ (x y : Reg) (n : Nibble), decode (BitVec.ofNat 16 (0xD000 + 0x100 * x.val + 0x10 * y.val + n.toNat)) = .drw x y n ∧
    ∀ s : State,
      (n.toNat = 0 ∨ s.index.toNat + n.toNat - 1 ≤ 0xFFF → ∃ t, exec (.drw x y n) s = .next t ∧
        t.display.mode = s.display.mode ∧
        (∀ r < s.display.height, ∀ c < s.display.width,
          (Covered s x y n.toNat r c → t.display.pixel r c = !s.display.pixel r c) ∧
          (¬ Covered s x y n.toNat r c → t.display.pixel r c = s.display.pixel r c)) ∧
        ((∃ r c, s.display.pixel r c = true ∧ Covered s x y n.toNat r c) → t.reg 15 = 0x01#8) ∧
        ((¬ ∃ r c, s.display.pixel r c = true ∧ Covered s x y n.toNat r c) → t.reg 15 = 0x00#8) ∧
        t.pc = s.pc + 2#16 ∧ OnlyChanges s t [.display, .reg 15, .pc, .notes] ∧
        Reports s t [15] [.screenRefresh t.display s.display.width s.display.height]) ∧
      (1 ≤ n.toNat → 0xFFF < s.index.toNat + n.toNat - 1 → ∃ t, exec (.drw x y n) s = .next t ∧
        TakesFault s t .addressOutOfRange (max s.index.toNat 0x1000))

/-- R173(a), a law the spec derives from R172: the same sprite drawn twice at the same coordinates restores the
display exactly, and the second draw sets VF exactly if the first left a pixel under one of its set bits set. The
second draw may name its coordinates by other registers, since the first may have overwritten VF. -/
def Obligations.DrawingTwiceRestoresTheDisplay : Prop :=
  ∀ (x y x' y' : Reg) (n : Nibble) (s : State), n.toNat = 0 ∨ s.index.toNat + n.toNat - 1 ≤ 0xFFF →
    ∃ t, exec (.drw x y n) s = .next t ∧
      (t.reg x' = s.reg x → t.reg y' = s.reg y → ∃ u, exec (.drw x' y' n) t = .next u ∧
        u.display = s.display ∧
        (u.reg 15 = 0x01#8 ↔ ∃ r c, Covered s x y n.toNat r c ∧ t.display.pixel r c = true))

/-- R173(b), (c), laws the spec derives from R172: on a clear display a draw leaves VF 0; coordinates that are equal
modulo the dimensions draw alike. -/
def Obligations.ClearDrawsAndWrappedCoordinates : Prop :=
  ∀ (x y x' y' : Reg) (n : Nibble) (s : State), n.toNat = 0 ∨ s.index.toNat + n.toNat - 1 ≤ 0xFFF →
    ∃ t, exec (.drw x y n) s = .next t ∧
      (setPixels s.display = ∅ → t.reg 15 = 0x00#8) ∧
      ((s.reg x').toNat = (s.reg x).toNat % s.display.width →
        (s.reg y').toNat = (s.reg y).toNat % s.display.height → exec (.drw x' y' n) s = .next t)

/-- R173(d), a law the spec derives from R172: the set pixels after a draw are those before, plus the sprite's set
bits, minus twice the collisions. -/
def Obligations.DrawCountsPixels : Prop :=
  ∀ (x y : Reg) (n : Nibble) (s : State), n.toNat = 0 ∨ s.index.toNat + n.toNat - 1 ≤ 0xFFF →
    ∃ t, exec (.drw x y n) s = .next t ∧
      (setPixels t.display).ncard + 2 * {q ∈ setPixels s.display | Covered s x y n.toNat q.1 q.2}.ncard =
        (setPixels s.display).ncard +
          {b : Nat × Nat | b.1 < n.toNat ∧ b.2 < 8 ∧
            (s.mem.read (s.index.toNat + b.1)).getLsbD (7 - b.2) = true}.ncard

/-! ## Timers -/

/-- R181, R182, R183: LD Vx,DT; LD DT,Vx; LD ST,Vx. -/
def Obligations.TimerLoadsAndStores : Prop :=
  ∀ x : Reg,
    decode (BitVec.ofNat 16 (0xF007 + 0x100 * x.val)) = .ldFromDelay x ∧
    decode (BitVec.ofNat 16 (0xF015 + 0x100 * x.val)) = .ldDelay x ∧
    decode (BitVec.ofNat 16 (0xF018 + 0x100 * x.val)) = .ldSound x ∧
    (LoadsRegister (.ldFromDelay x) x fun s => s.dt.toNat) ∧
    (∀ s, ∃ t, exec (.ldDelay x) s = .next t ∧ t.dt = s.reg x ∧ t.pc = s.pc + 2#16 ∧
      OnlyChanges s t [.dt, .pc, .notes] ∧
      .delayTimerChanged (s.reg x) ∈ t.notes.drop s.notes.length) ∧
    (∀ s, ∃ t, exec (.ldSound x) s = .next t ∧ t.st = s.reg x ∧ t.pc = s.pc + 2#16 ∧
      OnlyChanges s t [.st, .pc, .notes] ∧
      .soundTimerChanged (s.reg x) ∈ t.notes.drop s.notes.length ∧ .playSound ∉ t.notes.drop s.notes.length)

/-- R245: a tick in `Running` or `Paused` counts each nonzero timer down by one, clamps at zero, sounds while ST is
nonzero, and writes nothing else; R246: in `Stopped` nothing happens. The sound policy is the spec's decision D17, the
stop of the timers D18 (log 9). -/
def Obligations.TickCountsDownAndSounds : Prop :=
  ∀ s : State,
    (s.ctrl ≠ .stopped →
      (tick s).dt.toNat = s.dt.toNat - 1 ∧ (tick s).st.toNat = s.st.toNat - 1 ∧
      OnlyChanges s (tick s) [.dt, .st, .notes] ∧
      (tick s).notes = s.notes ++ (if s.dt = 0 then [] else [.delayTimerChanged (tick s).dt]) ++
        (if s.st = 0 then [] else [.playSound, .soundTimerChanged (tick s).st])) ∧
    (s.ctrl = .stopped → tick s = s)

/-- R246, R245: after `n` ticks a timer that held `v` holds `max(v - n, 0)`, and `min(v, n)` play-sounds were
emitted for ST (the sound policy is decision D17; log 9). -/
def Obligations.TicksObeyTheCountingLaw : Prop :=
  ∀ (n : Nat) (s : State), s.ctrl ≠ .stopped →
    (ticks n s).dt.toNat = s.dt.toNat - n ∧ (ticks n s).st.toNat = s.st.toNat - n ∧
    ((ticks n s).notes.drop s.notes.length).count .playSound = min s.st.toNat n ∧
    OnlyChanges s (ticks n s) [.dt, .st, .notes]

/-! ## Keypad -/

/-- R191, R192: SKP and SKNP test the key of the low nibble of Vx. -/
def Obligations.KeySkipsTestTheLowNibbleKey : Prop :=
  ∀ x : Reg,
    decode (BitVec.ofNat 16 (0xE09E + 0x100 * x.val)) = .skp x ∧
    decode (BitVec.ofNat 16 (0xE0A1 + 0x100 * x.val)) = .sknp x ∧
    (SkipsWhen (.skp x) fun s => ∀ k : Key, k.val = (s.reg x).toNat % 16 → s.key k = true) ∧
    (SkipsWhen (.sknp x) fun s => ∀ k : Key, k.val = (s.reg x).toNat % 16 → s.key k = false)

/-- R193 with the spec's decision D13: the four lines of the wait-for-key, in their order, and what does not complete
it: a key already down, a key-up, a second key. That `exec` of LD Vx,K while it waits is the same step is the model's
reading (log 13); what is reported is decision D22 (log 9). -/
def Obligations.WaitForKeyParksLatchesAndDelivers : Prop :=
  ∀ x : Reg, decode (BitVec.ofNat 16 (0xF00A + 0x100 * x.val)) = .ldKey x ∧
    (∀ s : State, s.wait = .notWaiting → ∃ t, exec (.ldKey x) s = .next t ∧ t.wait = .waiting x ∧
      OnlyChanges s t [.wait]) ∧
    (∀ s : State, s.wait = .waiting x → instructionStep s = .next s ∧ exec (.ldKey x) s = .next s) ∧
    (∀ (s : State) (k : Key), s.ctrl ≠ .stopped → s.wait = .waiting x → s.key k = false →
      ∃ t, request (.keyDown k) s = .next t ∧ t.key k = true ∧ t.wait = .keyLatched x k ∧
        OnlyChanges s t [.key k, .wait]) ∧
    (∀ (s : State) (k : Key), s.wait = .keyLatched x k →
      ∃ t, instructionStep s = .next t ∧ exec (.ldKey x) s = .next t ∧ (t.reg x).toNat = k.val ∧
        t.pc = s.pc + 2#16 ∧ t.wait = .notWaiting ∧
        OnlyChanges s t [.reg x, .pc, .wait, .notes] ∧ Reports s t [x] []) ∧
    (∀ (s : State) (k : Key), s.ctrl ≠ .stopped → s.wait = .waiting x → s.key k = true →
      request (.keyDown k) s = .next s) ∧
    (∀ (s : State) (k : Key), s.ctrl ≠ .stopped → ∃ t, request (.keyUp k) s = .next t ∧ t.wait = s.wait) ∧
    (∀ (s : State) (j k : Key), s.ctrl ≠ .stopped → s.wait = .keyLatched x j →
      ∃ t, request (.keyDown k) s = .next t ∧ t.key k = true ∧ t.wait = .keyLatched x j)

/-! ## Faults and the instruction step -/

/-- R202: a word that matches no row takes `UnsupportedOpcode` with the raw word, whatever the state. -/
def Obligations.UnsupportedWordsTakeTheirFault : Prop :=
  ∀ w : Word, ((∀ row ∈ opcodeMap, w &&& row.1 ≠ row.2) → decode w = .unsupported w) ∧
    ∀ s : State, ∃ t, exec (.unsupported w) s = .next t ∧ TakesFault s t .unsupportedOpcode w.toNat

/-- R235, R231, R238: the faults of the fetch, alignment first, then the bound, before anything at `PC` is read
(the spec's decisions D3 and D4; log 9). -/
def Obligations.FetchFaultsInOrder : Prop :=
  ∀ s : State, s.wait = .notWaiting →
    (s.pc.toNat % 2 = 1 → ∃ t, instructionStep s = .next t ∧ TakesFault s t .misalignedPC s.pc.toNat) ∧
    (s.pc.toNat % 2 = 0 → 0xFFE < s.pc.toNat →
      ∃ t, instructionStep s = .next t ∧ TakesFault s t .addressOutOfRange s.pc.toNat)

/-- R239: an instruction step that records a fault changes nothing but `err`, `ctrl` and the output stream, which
gets `Error` and then `Stopped` (precise faults are the spec's decision D4; log 9). -/
def Obligations.FaultingStepWritesNothingElse : Prop :=
  ∀ s t : State, instructionStep s = .next t → s.err = none → t.err ≠ none →
    ∃ kind info, TakesFault s t kind info

/-- The step of the machine, agent by agent. When the bytes at `PC` decode to an instruction, it is `exec` of it: with
an empty schedule as it stands, with an instruction step at the head of the schedule after that entry is taken off, and
for a single-step request in `Paused` likewise. In `Running` the instruction clock performs the instruction step,
parked and faulting ones included; in `Paused` it changes nothing but the schedule; a tick at the head of the schedule
is the tick, a request the request (R247, R241, R245, R248). The schedule as data, and the step of a clock that is not
enabled, are the model's choice (log 2). -/
def Obligations.StepRunsTheDecodedInstruction : Prop :=
  (∀ (s : State) (i : Instr), s.wait = .notWaiting → s.pc.toNat % 2 = 0 → s.pc.toNat ≤ 0xFFE →
    decodeBytes [s.mem.read s.pc.toNat, s.mem.read (s.pc.toNat + 1)] = .ok (i, []) →
    (s.ctrl = .running → s.agenda = [] → step s = exec i s) ∧
    (∀ rest, s.ctrl = .running → s.agenda = .instruction :: rest → step s = exec i (s.setAgenda rest)) ∧
    (∀ rest, s.ctrl = .paused → s.agenda = .host .singleStep :: rest → step s = exec i (s.setAgenda rest))) ∧
  (∀ s : State, s.ctrl = .running →
    (s.agenda = [] → step s = instructionStep s) ∧
    ∀ rest, s.agenda = .instruction :: rest → step s = instructionStep (s.setAgenda rest)) ∧
  (∀ s : State, s.ctrl = .paused →
    (s.agenda = [] → step s = .next s) ∧
    ∀ rest, s.agenda = .instruction :: rest → step s = .next (s.setAgenda rest)) ∧
  (∀ (s : State) (rest : List AgentStep), s.agenda = .tick :: rest → step s = .next (tick (s.setAgenda rest))) ∧
  (∀ (s : State) (r : Request) (rest : List AgentStep), s.agenda = .host r :: rest →
    step s = request r (s.setAgenda rest))

/-- Every step of the machine answers a next state, whichever agent it is. This is the model's choice and no rule of
the spec: a fault is a next state (log 1), and a clock that is not enabled steps too and changes nothing but the
schedule (log 2). -/
def Obligations.StepAlwaysAnswersANextState : Prop :=
  ∀ s : State, ∃ t, step s = .next t

/-! ## The invariant -/

/-- Tier 3. Every step keeps the machine's invariant: memory in canonical form, at most 16 return addresses (R26),
each even and at most 0x1000, and `PC` at most 0x10FE (R24), a recorded fault means `Stopped` (R32), a parked LD Vx,K
stands at `PC` (R193). The canonical form is the model's (log 8), so is the step of a clock that is not enabled
(log 2). -/
def Obligations.EveryStepKeepsTheInvariant : Prop :=
  ∀ s t : State, s.Inv → step s = .next t → t.Inv

/-- The invariant holds after reset (`State.reset` is the start state of an empty image, log 7). -/
def Obligations.ResetMeetsTheInvariant : Prop := State.reset.Inv

/-! ## Reset and boot -/

/-- R302: a reset with an image that fits builds the start state: the values of R301, the font at 0x000 to 0x04F, the
image from 0x200, zero elsewhere, `Running`. The zeros are the spec's decision D19 (log 9). The parts that are no
machine state go on (logs 2, 4, 5, 6). -/
def Obligations.ResetBuildsTheStartState : Prop :=
  ∀ (image : List Byte) (s : State), image.length ≤ 3584 →
    ∃ t, request (.reset image) s = .next t ∧
      (∀ x, t.reg x = 0x00#8) ∧ t.index = 0x0000#16 ∧ t.pc = 0x0200#16 ∧ t.stack = [] ∧ t.dt = 0x00#8 ∧
      t.st = 0x00#8 ∧ t.display.mode = .standard ∧ setPixels t.display = ∅ ∧ (∀ k, t.key k = false) ∧
      t.wait = .notWaiting ∧ t.err = none ∧ t.ctrl = .running ∧
      (∀ a < 80, t.mem.read a = fontTable.getD a 0) ∧
      (∀ a, 80 ≤ a → a < 0x200 → t.mem.read a = 0x00#8) ∧
      (∀ j, (h : j < image.length) → t.mem.read (0x200 + j) = image[j]) ∧
      (∀ a, 0x200 + image.length ≤ a → a ≤ 0xFFF → t.mem.read a = 0x00#8) ∧
      t.agenda = s.agenda ∧ t.draws = s.draws ∧ t.instrDelayMs = s.instrDelayMs ∧
      t.notes = s.notes ++ if s.ctrl = .stopped then [] else [.stopped]

/-- An image longer than 3584 bytes leaves the machine `Stopped` with `ProgramTooLarge` and its length, the font
loaded and no program byte, and emits `Error` and `Stopped` (R234, R304, decision D4), after the `Stopped` of the old
run if that was not stopped (R300, R242, R278). That the output stream goes on over the reset is the model's choice
(log 5), and that this record holds no `PC` the model's reading (log 10). The other fields after the failed load are
not its subject. -/
def Obligations.TooLongImageIsNotLoaded : Prop :=
  ∀ (image : List Byte) (s : State), 3584 < image.length →
    ∃ t, request (.reset image) s = .next t ∧
      t.err = some { kind := .programTooLarge, info := image.length, pc := none } ∧ t.ctrl = .stopped ∧
      (∀ a < 80, t.mem.read a = fontTable.getD a 0) ∧ (∀ a, 80 ≤ a → a ≤ 0xFFF → t.mem.read a = 0x00#8) ∧
      t.notes = s.notes ++ (if s.ctrl = .stopped then [] else [.stopped]) ++
        [.error { kind := .programTooLarge, info := image.length, pc := none }, .stopped]

/-- The values `State.reset` has, those of a start state with an empty image (R301 to R303; the zeros are the spec's
decision D19, log 9; that reset is the start state of an empty image is the model's choice, log 7). -/
def Obligations.ResetStateHasTheStatedValues : Prop :=
  (∀ x, State.reset.reg x = 0x00#8) ∧ State.reset.index = 0x0000#16 ∧ State.reset.pc = 0x0200#16 ∧
  State.reset.stack = [] ∧ State.reset.dt = 0x00#8 ∧ State.reset.st = 0x00#8 ∧
  State.reset.display.mode = .standard ∧ setPixels State.reset.display = ∅ ∧ (∀ k, State.reset.key k = false) ∧
  State.reset.wait = .notWaiting ∧ State.reset.err = none ∧ State.reset.ctrl = .running ∧
  (∀ a ≤ 0xFFF, State.reset.mem.read a = if a < 80 then fontTable.getD a 0 else 0x00#8)

/-! ## The host's requests -/

/-- R241, R242, R272, R273: pause, single-step, stop and set-instruction-delay; that a
request that asks for nothing new does nothing is the spec's decision D21 (log 9). -/
def Obligations.ControllerRequests : Prop :=
  ∀ s : State,
    (s.ctrl = .running → ∃ t, request (.pause true) s = .next t ∧ t.ctrl = .paused ∧
      t.notes = s.notes ++ [.changedToPaused] ∧ OnlyChanges s t [.ctrl, .notes]) ∧
    (s.ctrl = .paused → ∃ t, request (.pause false) s = .next t ∧ t.ctrl = .running ∧
      t.notes = s.notes ++ [.changedToRunning] ∧ OnlyChanges s t [.ctrl, .notes]) ∧
    (s.ctrl = .running → request (.pause false) s = .next s) ∧
    (s.ctrl = .paused → request (.pause true) s = .next s) ∧
    (s.ctrl = .paused → request .singleStep s = instructionStep s) ∧
    (s.ctrl = .running → request .singleStep s = .next s) ∧
    (s.ctrl ≠ .stopped → ∃ t, request .stop s = .next t ∧ t.ctrl = .stopped ∧
      t.notes = s.notes ++ [.stopped] ∧ OnlyChanges s t [.ctrl, .notes]) ∧
    (∀ ms, s.ctrl ≠ .stopped → ∃ t, request (.setInstructionDelay ms) s = .next t ∧ t.instrDelayMs = ms ∧
      OnlyChanges s t [.instrDelay])

/-- R274, R275: key-down latches a parked LD Vx,K on a transition and sets the flag; key-up clears it; neither
writes anything else. -/
def Obligations.KeyRequestsSetFlagsAndLatch : Prop :=
  ∀ (s : State) (k : Key), s.ctrl ≠ .stopped →
    (∃ t, request (.keyUp k) s = .next t ∧ t.key k = false ∧ OnlyChanges s t [.key k]) ∧
    (s.key k = true → request (.keyDown k) s = .next s) ∧
    (s.key k = false → ∃ t, request (.keyDown k) s = .next t ∧ t.key k = true ∧
      (∀ x, s.wait = .waiting x → t.wait = .keyLatched x k) ∧
      ((∀ x, s.wait ≠ .waiting x) → t.wait = s.wait) ∧ OnlyChanges s t [.key k, .wait])

/-- R277: enable-extended-screen-mode is the switch of HIRES without `PC` and without a notification (that the new
buffer is clear is the spec's decision D14; log 9). -/
def Obligations.EnableExtendedSwitchesTheMode : Prop :=
  ∀ s : State, s.ctrl ≠ .stopped → ∃ t, request .enableExtendedScreenMode s = .next t ∧
    t.display.mode = .extended ∧ (s.display.mode = .standard → setPixels t.display = ∅) ∧
    (s.display.mode = .extended → t.display = s.display) ∧ OnlyChanges s t [.display]

/-- R240, R241, R246, R271: in `Stopped` no agent's step changes anything but the schedule, until a reset
(decisions D18 and D21; the schedule is the model's, log 2). -/
def Obligations.StoppedIsTerminalUntilReset : Prop :=
  ∀ s t : State, s.ctrl = .stopped → NoResetNext s → step s = .next t → OnlyChanges s t [.agenda]

/-! ## Rules of the whole machine -/

/-- R29, R310: no step returns from `Extended` to `Standard` but a reset. -/
def Obligations.ExtendedModeStaysUntilReset : Prop :=
  ∀ s t : State, s.display.mode = .extended → NoResetNext s → step s = .next t → t.display.mode = .extended

/-- R32, R239: a recorded fault is never cleared or replaced but by a reset. The premise that a recorded fault means
`Stopped` is part of the invariant, stated for every step. -/
def Obligations.RecordedFaultStaysUntilReset : Prop :=
  ∀ (s t : State) (r : FaultRecord), (s.err ≠ none → s.ctrl = .stopped) → s.err = some r → NoResetNext s →
    step s = .next t → t.err = some r

/-- R24, R236, R57(d): a tick writes only the timers; a request that is neither a reset nor a single-step writes only
keys, `wait`, the display, `ctrl` and the delay, never `PC`, a register or memory. -/
def Obligations.TimerAndHostWriteOnlyTheirParts : Prop :=
  (∀ s : State, OnlyChanges s (tick s) [.dt, .st, .notes]) ∧
  (∀ (s t : State) (r : Request), r ≠ .singleStep → (∀ image, r ≠ .reset image) → request r s = .next t →
    OnlyChanges s t
      ((List.finRange 16).map .key ++ [.wait, .display, .ctrl, .notes, .instrDelay]))

/-- An instruction writes only the general registers R21 names for it (a list the spec derives); in particular VF, as
a flag, only by the six of R22. -/
def Obligations.RegistersAreWrittenOnlyAsListed : Prop :=
  ∀ (i : Instr) (s t : State) (r : Reg), s.wait = .notWaiting → exec i s = .next t → r ∉ registersWritten i →
    t.reg r = s.reg r

/-- R157, spec/95_test_vectors.md S8: no instruction but LD B,Vx and LD [I],Vx changes a byte of memory, and they
only the bytes at `I` they store to. -/
def Obligations.MemoryIsWrittenOnlyByTheTwoStores : Prop :=
  ∀ (i : Instr) (s t : State) (a : Nat), exec i s = .next t → t.mem.read a ≠ s.mem.read a →
    (∃ x, (i = .ldBcd x ∨ i = .dump x)) ∧ s.index.toNat ≤ a ∧ a < s.index.toNat + bytesTouched i ∧ a ≤ 0xFFF

/-- R57(d), R30, R27, R28: no instruction writes the key flags, the schedule or the delay; the timers change only by
LD DT,Vx and LD ST,Vx, `I` only by LD I,nnn, ADD I,Vx and LD F,Vx, the stack only by CALL and RET, the display only by
CLS, DRW and HIRES (R25, R26, R29). -/
def Obligations.SpecialStateIsWrittenOnlyByItsInstructions : Prop :=
  ∀ (i : Instr) (s t : State), exec i s = .next t →
    (∀ k, t.key k = s.key k) ∧ t.agenda = s.agenda ∧ t.instrDelayMs = s.instrDelayMs ∧
    (t.dt ≠ s.dt → ∃ x, i = .ldDelay x) ∧ (t.st ≠ s.st → ∃ x, i = .ldSound x) ∧
    (t.index ≠ s.index → (∃ a, i = .ldIndex a) ∨ (∃ x, i = .addIndex x) ∨ ∃ x, i = .ldFont x) ∧
    (t.stack ≠ s.stack → i = .ret ∨ ∃ a, i = .call a) ∧
    (t.display ≠ s.display → i = .cls ∨ i = .hires ∨ ∃ x y n, i = .drw x y n)

/-- R281, the spec's reading D22 (log 9): an instruction that takes no fault and does not park reports the registers
it writes, ascending, each once and with its final value, then `I`, a timer or the screen, then `PC`; a parking
LD Vx,K reports nothing. -/
def Obligations.InstructionsReportWhatTheyWrite : Prop :=
  ∀ (i : Instr) (s t : State), s.wait = .notWaiting → exec i s = .next t →
    (∃ kind info, TakesFault s t kind info) ∨ (∃ x, i = .ldKey x ∧ t.notes = s.notes) ∨
      Reports s t ((List.finRange 16).filter fun r => r ∈ registersWritten i) (otherReports i t)

/-! ## The disassembler -/

/-- R211, R212: the listing of an image of `L` bytes has `floor(L / 2)` records; record `i` has the address
`0x200 + 2*i` and the decoding of the two bytes at offset `2*i`, the first more significant. -/
def Obligations.ListingIsALinearSweep : Prop :=
  ∀ image : List Byte, (disassemble image).length = image.length / 2 ∧
    ∀ (i : Nat) (r : Record), (disassemble image)[i]? = some r →
      r.address = 0x200 + 2 * i ∧
      ∃ hi lo, image[2 * i]? = some hi ∧ image[2 * i + 1]? = some lo ∧
        r.instr = decode (BitVec.ofNat 16 (0x100 * hi.toNat + lo.toNat))

/-- R216: the source's worked example, records and texts (the byte order is decision D1, the spelling D24; log 9). -/
def Obligations.SourceListingExample : Prop :=
  disassemble [0x00#8, 0xE0#8, 0x12#8, 0x28#8] =
    [{ address := 0x200, instr := .cls }, { address := 0x202, instr := .jp 0x228 }] ∧
  (disassemble [0x00#8, 0xE0#8, 0x12#8, 0x28#8]).map recordText = ["0x200: CLS", "0x202: JP 0x228"]
end

