-- ==== Sys2Proof/Laws/Decode.lean ====
section
/-! SUPPORT. The fields of a word and the packed words as numbers, the fields of the words the encoder packs, a
word as the packing of its fields, and the two bytes of a word. -/

namespace Sys2Proof

/-! ## Fields as numbers -/

theorem fieldOp_toNat (w : Word) : (fieldOp w).toNat = w.toNat / 0x1000 % 0x10 := by
  simp [fieldOp, Nat.shiftRight_eq_div_pow]

theorem fieldX_val (w : Word) : (fieldX w).val = w.toNat / 0x100 % 0x10 := by
  simp [fieldX, Nat.shiftRight_eq_div_pow]

theorem fieldY_val (w : Word) : (fieldY w).val = w.toNat / 0x10 % 0x10 := by
  simp [fieldY, Nat.shiftRight_eq_div_pow]

theorem fieldN_toNat (w : Word) : (fieldN w).toNat = w.toNat % 0x10 := by
  simp [fieldN]

theorem fieldKK_toNat (w : Word) : (fieldKK w).toNat = w.toNat % 0x100 := by
  simp [fieldKK]

theorem fieldNNN_toNat (w : Word) : (fieldNNN w).toNat = w.toNat % 0x1000 := by
  simp [fieldNNN]

/-! ## Packed words as numbers -/

theorem append_toNat {v w : Nat} (a : BitVec v) (b : BitVec w) :
    (a ++ b).toNat = a.toNat * 2 ^ w + b.toNat := by
  rw [BitVec.toNat_append, ← Nat.shiftLeft_add_eq_or_of_lt b.isLt, Nat.shiftLeft_eq]

theorem packA_toNat (op : Nibble) (nnn : Addr12) : (packA op nnn).toNat = 0x1000 * op.toNat + nnn.toNat :=
  (append_toNat op nnn).trans (by omega)

theorem packXK_toNat (op : Nibble) (x : Reg) (kk : Byte) :
    (packXK op x kk).toNat = 0x1000 * op.toNat + 0x100 * x.val + kk.toNat := by
  have h : ((BitVec.ofFin x : Nibble) ++ kk : BitVec 12).toNat = 0x100 * x.val + kk.toNat :=
    (append_toNat (BitVec.ofFin x : Nibble) kk).trans (by rw [BitVec.toNat_ofFin]; omega)
  exact (packA_toNat op _).trans (by rw [h]; omega)

theorem packXYN_toNat (op : Nibble) (x y : Reg) (n : Nibble) :
    (packXYN op x y n).toNat = 0x1000 * op.toNat + 0x100 * x.val + 0x10 * y.val + n.toNat := by
  have h : ((BitVec.ofFin y : Nibble) ++ n : BitVec 8).toNat = 0x10 * y.val + n.toNat :=
    (append_toNat (BitVec.ofFin y : Nibble) n).trans (by rw [BitVec.toNat_ofFin]; omega)
  exact (packXK_toNat op x _).trans (by rw [h]; omega)

/-- A word written as a number from the fields of format A. -/
theorem ofNat_packA (op : Nibble) (nnn : Addr12) :
    BitVec.ofNat 16 (0x1000 * op.toNat + nnn.toNat) = packA op nnn := by
  rw [← packA_toNat, BitVec.ofNat_toNat, BitVec.setWidth_eq]

/-- A word written as a number from the fields of format XK. -/
theorem ofNat_packXK (op : Nibble) (x : Reg) (kk : Byte) :
    BitVec.ofNat 16 (0x1000 * op.toNat + 0x100 * x.val + kk.toNat) = packXK op x kk := by
  rw [← packXK_toNat, BitVec.ofNat_toNat, BitVec.setWidth_eq]

/-- A word written as a number from the fields of format XYN. -/
theorem ofNat_packXYN (op : Nibble) (x y : Reg) (n : Nibble) :
    BitVec.ofNat 16 (0x1000 * op.toNat + 0x100 * x.val + 0x10 * y.val + n.toNat) = packXYN op x y n := by
  rw [← packXYN_toNat, BitVec.ofNat_toNat, BitVec.setWidth_eq]

/-! ## Fields of packed words -/

@[simp] theorem fieldOp_packA (op : Nibble) (nnn : Addr12) : fieldOp (packA op nnn) = op :=
  BitVec.eq_of_toNat_eq (by rw [fieldOp_toNat, packA_toNat]; omega)

@[simp] theorem fieldNNN_packA (op : Nibble) (nnn : Addr12) : fieldNNN (packA op nnn) = nnn :=
  BitVec.eq_of_toNat_eq (by rw [fieldNNN_toNat, packA_toNat]; omega)

@[simp] theorem fieldOp_packXK (op : Nibble) (x : Reg) (kk : Byte) : fieldOp (packXK op x kk) = op :=
  BitVec.eq_of_toNat_eq (by rw [fieldOp_toNat, packXK_toNat]; omega)

@[simp] theorem fieldX_packXK (op : Nibble) (x : Reg) (kk : Byte) : fieldX (packXK op x kk) = x :=
  Fin.ext (by rw [fieldX_val, packXK_toNat]; omega)

@[simp] theorem fieldKK_packXK (op : Nibble) (x : Reg) (kk : Byte) : fieldKK (packXK op x kk) = kk :=
  BitVec.eq_of_toNat_eq (by rw [fieldKK_toNat, packXK_toNat]; omega)

@[simp] theorem fieldOp_packXYN (op : Nibble) (x y : Reg) (n : Nibble) : fieldOp (packXYN op x y n) = op :=
  BitVec.eq_of_toNat_eq (by rw [fieldOp_toNat, packXYN_toNat]; omega)

@[simp] theorem fieldX_packXYN (op : Nibble) (x y : Reg) (n : Nibble) : fieldX (packXYN op x y n) = x :=
  Fin.ext (by rw [fieldX_val, packXYN_toNat]; omega)

@[simp] theorem fieldY_packXYN (op : Nibble) (x y : Reg) (n : Nibble) : fieldY (packXYN op x y n) = y :=
  Fin.ext (by rw [fieldY_val, packXYN_toNat]; omega)

@[simp] theorem fieldN_packXYN (op : Nibble) (x y : Reg) (n : Nibble) : fieldN (packXYN op x y n) = n :=
  BitVec.eq_of_toNat_eq (by rw [fieldN_toNat, packXYN_toNat]; omega)

/-! ## A word is the packing of its fields -/

theorem packA_fields (w : Word) : packA (fieldOp w) (fieldNNN w) = w :=
  BitVec.eq_of_toNat_eq (by rw [packA_toNat, fieldOp_toNat, fieldNNN_toNat]; omega)

theorem packXK_fields (w : Word) : packXK (fieldOp w) (fieldX w) (fieldKK w) = w :=
  BitVec.eq_of_toNat_eq (by rw [packXK_toNat, fieldOp_toNat, fieldX_val, fieldKK_toNat]; omega)

theorem packXYN_fields (w : Word) : packXYN (fieldOp w) (fieldX w) (fieldY w) (fieldN w) = w :=
  BitVec.eq_of_toNat_eq (by
    rw [packXYN_toNat, fieldOp_toNat, fieldX_val, fieldY_val, fieldN_toNat]; omega)

/-! ## The two bytes of a word -/

theorem wordOf_toNat (hi lo : Byte) : (wordOf hi lo).toNat = 0x100 * hi.toNat + lo.toNat :=
  (append_toNat hi lo).trans (by omega)

/-- The bytes of a word, laid out and read back, are the word (R52). -/
theorem wordOf_bytesOf (w : Word) : wordOf (w.extractLsb' 8 8) (w.extractLsb' 0 8) = w := by
  apply BitVec.eq_of_toNat_eq
  rw [wordOf_toNat]
  simp only [BitVec.extractLsb'_toNat, Nat.shiftRight_eq_div_pow]
  omega

theorem decodeBytes_bytesOf (w : Word) (rest : List Byte) :
    decodeBytes (bytesOf w ++ rest) = .ok (decode w, rest) := by
  simp [bytesOf, decodeBytes, wordOf_bytesOf]

/-- What `decodeTableWord` answers: the decoding of the word's low 16 bits. -/
theorem decodeTableWord_eq (nbits w : Nat) :
    decodeTableWord nbits w = some (decode (BitVec.ofNat 16 w)) := by
  have := decodeBytes_bytesOf (BitVec.ofNat 16 w) []
  simp only [List.append_nil] at this
  simp [decodeTableWord, tableBytes, this]

end Sys2Proof
end

