-- ==== Sys2Proof/Laws/Display.lean ====
section
/-! SUPPORT. The display buffer pixel by pixel: flips, clearing, and what drawing a sprite does to every pixel and
to the collision flag. -/

namespace Sys2Proof.Machine

variable {h w : Nat}

/-- Two planes with the same pixels are the same plane. -/
theorem Plane.ext_pixel {p q : Plane h w} (e : ∀ r c, p.pixel r c = q.pixel r c) : p = q := by
  apply Vector.ext
  intro r hr
  apply Vector.ext
  intro c hc
  exact e ⟨r, hr⟩ ⟨c, hc⟩

@[simp] theorem Plane.pixel_blank (r : Fin h) (c : Fin w) : (Plane.blank h w).pixel r c = false := by
  simp [Plane.blank, Plane.pixel]

/-- A flip changes the one pixel. -/
theorem Plane.pixel_flip (p : Plane h w) (r r' : Fin h) (c c' : Fin w) :
    (p.flip r c).pixel r' c' = if r' = r ∧ c' = c then !p.pixel r c else p.pixel r' c' := by
  unfold Plane.flip Plane.pixel
  by_cases hr : r' = r
  · subst hr
    by_cases hc : c' = c
    · subst hc; simp
    · have hcv : c.val ≠ c'.val := fun e => hc (Fin.ext e.symm)
      simp [hc, hcv]
  · have hrv : r.val ≠ r'.val := fun e => hr (Fin.ext e.symm)
    simp [hr, hrv]

/-! ## Drawing -/

variable [NeZero h] [NeZero w]

theorem wrapTo_val (n : Nat) [NeZero n] (k : Nat) : (wrapTo n k).val = k % n := rfl

theorem Plane.drawBit_pixel (p : Plane h w) (hit : Bool) (y x : Nat) (bit : Bool) (r : Fin h) (c : Fin w) :
    (p.drawBit hit y x bit).1.pixel r c =
      ((p.pixel r c) ^^ (bit && (r == wrapTo h y && c == wrapTo w x))) := by
  unfold Plane.drawBit
  cases bit
  · simp
  · simp only [if_true, Plane.pixel_flip, Bool.true_and]
    by_cases hr : r = wrapTo h y
    · by_cases hc : c = wrapTo w x
      · simp [hr, hc]
      · simp [hr, hc, beq_eq_false_iff_ne.mpr hc]
    · simp [hr, beq_eq_false_iff_ne.mpr hr]

theorem Plane.drawBit_hit (p : Plane h w) (hit : Bool) (y x : Nat) (bit : Bool) :
    (p.drawBit hit y x bit).2 = (hit || (bit && p.pixel (wrapTo h y) (wrapTo w x))) := by
  unfold Plane.drawBit
  cases bit <;> simp

/-- One sprite row over columns whose places are all different: each pixel of row `y` under a set bit is flipped,
and the row hits if one of them was set before. -/
theorem Plane.drawColumns_spec (y x : Nat) (b : Byte) (cs : List Nat) (p : Plane h w) (hit : Bool)
    (nd : (cs.map fun k => wrapTo w (x + k)).Nodup) :
    (∀ r c, (Plane.drawColumns y x b cs (p, hit)).1.pixel r c =
      ((p.pixel r c) ^^
        (r == wrapTo h y && cs.any fun k => b.getLsbD (7 - k) && c == wrapTo w (x + k)))) ∧
    (Plane.drawColumns y x b cs (p, hit)).2 =
      (hit || cs.any fun k => b.getLsbD (7 - k) && p.pixel (wrapTo h y) (wrapTo w (x + k))) := by
  induction cs generalizing p hit with
  | nil => simp [Plane.drawColumns]
  | cons k ks ih =>
    obtain ⟨hk, hks⟩ := List.nodup_cons.mp nd
    have fresh : ∀ k' ∈ ks, wrapTo w (x + k') ≠ wrapTo w (x + k) := fun k' hk' e =>
      hk (List.mem_map.mpr ⟨k', hk', e⟩)
    rw [Plane.drawColumns]
    obtain ⟨hp, hh⟩ := ih (p.drawBit hit y (x + k) (b.getLsbD (7 - k))).1
      (p.drawBit hit y (x + k) (b.getLsbD (7 - k))).2 hks
    constructor
    · intro r c
      rw [hp, Plane.drawBit_pixel, List.any_cons]
      by_cases hr : r = wrapTo h y
      · by_cases hc : c = wrapTo w (x + k)
        · have none : (ks.any fun k' => b.getLsbD (7 - k') && c == wrapTo w (x + k')) = false := by
            rw [List.any_eq_false]
            intro k' hk'
            simp [hc, (fresh k' hk').symm]
          simp [hr, none]
        · simp [hr, beq_eq_false_iff_ne.mpr hc]
      · simp [beq_eq_false_iff_ne.mpr hr]
    · rw [hh, Plane.drawBit_hit, List.any_cons, Bool.or_assoc]
      congr 2
      rw [Bool.eq_iff_iff]
      simp only [List.any_eq_true]
      refine exists_congr fun k' => and_congr_right fun hk' => ?_
      simp [Plane.drawBit_pixel, beq_eq_false_iff_ne.mpr (fresh k' hk')]

/-- The bit of a sprite row list that covers a pixel: row offset `i`, any of the eight columns. -/
def coveredFrom (h w : Nat) [NeZero h] [NeZero w] (x : Nat) (r : Fin h) (c : Fin w) : Nat → List Byte → Bool
  | _, [] => false
  | y, b :: bs =>
    (r == wrapTo h y && (List.range 8).any fun k => b.getLsbD (7 - k) && c == wrapTo w (x + k)) ||
      coveredFrom h w x r c (y + 1) bs

theorem columns_nodup (hw : 8 ≤ w) (x : Nat) :
    ((List.range 8).map fun k => wrapTo w (x + k)).Nodup := by
  refine List.Nodup.map_on ?_ List.nodup_range
  intro a ha b hb e
  have ha := List.mem_range.mp ha
  have hb := List.mem_range.mp hb
  have e' : (x + a) % w = (x + b) % w := by simpa [Fin.ext_iff, wrapTo_val] using e
  have := (Nat.ModEq.add_left_cancel' x e' : a ≡ b [MOD w])
  rw [Nat.ModEq, Nat.mod_eq_of_lt (by omega), Nat.mod_eq_of_lt (by omega)] at this
  exact this

/-- A pixel off the rows `y` to `y + n - 1` (modulo the height) is not covered. -/
theorem covered_row {x : Nat} {r : Fin h} {c : Fin w} {y : Nat} {bs : List Byte}
    (hc : coveredFrom h w x r c y bs = true) : ∃ i < bs.length, r = wrapTo h (y + i) := by
  induction bs generalizing y with
  | nil => simp [coveredFrom] at hc
  | cons b bs ih =>
    simp only [coveredFrom, Bool.or_eq_true, Bool.and_eq_true, beq_iff_eq] at hc
    rcases hc with ⟨hr, -⟩ | hc
    · exact ⟨0, by simp, hr⟩
    · obtain ⟨i, hi, hr⟩ := ih hc
      exact ⟨i + 1, by simpa using hi, by rw [hr]; congr 1; omega⟩

/-- What drawing a sprite does, whole, when its rows fit the height and its columns the width: each covered pixel is
flipped, every other is left, and it hits exactly if a covered pixel was set before. -/
theorem Plane.drawRows_spec (hw : 8 ≤ w) (x y : Nat) (bs : List Byte) (p : Plane h w) (hit : Bool)
    (hn : bs.length ≤ h) :
    (∀ r c, (Plane.drawRows x y bs (p, hit)).1.pixel r c = ((p.pixel r c) ^^ coveredFrom h w x r c y bs)) ∧
    ((Plane.drawRows x y bs (p, hit)).2 = true ↔
      hit = true ∨ ∃ r c, p.pixel r c = true ∧ coveredFrom h w x r c y bs = true) := by
  induction bs generalizing y p hit with
  | nil => simp [Plane.drawRows, coveredFrom]
  | cons b bs ih =>
    have hn' : bs.length + 1 ≤ h := by simpa using hn
    rw [Plane.drawRows]
    obtain ⟨cp, ch⟩ := Plane.drawColumns_spec y x b (List.range 8) p hit (columns_nodup hw x)
    obtain ⟨rp, rh⟩ := ih (y + 1) (Plane.drawColumns y x b (List.range 8) (p, hit)).1
      (Plane.drawColumns y x b (List.range 8) (p, hit)).2 (by omega)
    have later : ∀ {r : Fin h} {c : Fin w}, coveredFrom h w x r c (y + 1) bs = true →
        (r == wrapTo h y) = false := by
      intro r c hcov
      refine beq_eq_false_iff_ne.mpr fun hr => ?_
      obtain ⟨i, hi, hri⟩ := covered_row hcov
      rw [hr] at hri
      have e : y % h = (y + (1 + i)) % h := by
        have := congrArg Fin.val hri
        simpa [wrapTo_val, Nat.add_assoc] using this
      have e2 : (0 : Nat) ≡ 1 + i [MOD h] := Nat.ModEq.add_left_cancel' y (by simpa [Nat.ModEq] using e)
      rw [Nat.ModEq, Nat.mod_eq_of_lt (by omega), Nat.mod_eq_of_lt (by omega)] at e2
      omega
    constructor
    · intro r c
      rw [rp, cp, coveredFrom]
      by_cases hcov : coveredFrom h w x r c (y + 1) bs = true
      · simp [hcov, later hcov]
      · simp [Bool.eq_false_iff.mpr hcov]
    · rw [rh, ch]
      simp only [Bool.or_eq_true, or_assoc]
      refine or_congr_right ?_
      constructor
      · rintro (hh | ⟨r, c, hp, hcov⟩)
        · obtain ⟨k, hk, hb⟩ := List.any_eq_true.mp hh
          simp only [Bool.and_eq_true] at hb
          refine ⟨wrapTo h y, wrapTo w (x + k), hb.2, ?_⟩
          simp only [coveredFrom, beq_self_eq_true, Bool.true_and, Bool.or_eq_true]
          exact .inl (List.any_eq_true.mpr ⟨k, hk, by simp [hb.1]⟩)
        · refine ⟨r, c, ?_, by simp [coveredFrom, hcov]⟩
          simpa [cp, later hcov] using hp
      · rintro ⟨r, c, hp, hcov⟩
        simp only [coveredFrom, Bool.or_eq_true, Bool.and_eq_true, beq_iff_eq] at hcov
        rcases hcov with ⟨hr, ha⟩ | hcov
        · obtain ⟨k, hk, hb⟩ := List.any_eq_true.mp ha
          simp only [Bool.and_eq_true, beq_iff_eq] at hb
          exact .inl (List.any_eq_true.mpr ⟨k, hk, by rw [← hr, ← hb.2]; simp [hb.1, hp]⟩)
        · exact .inr ⟨r, c, by simpa [cp, later hcov] using hp, hcov⟩

end Sys2Proof.Machine
end

