-- ==== Sys2Proof/Laws/Memory.lean ====
section
/-! SUPPORT. What the memory operations do: reads after writes, with no condition on the memory, and that every
operation keeps the canonical form. -/

namespace Sys2Proof.Machine

/-! ## Reads after writes -/

theorem Memory.read_erase_same (m : Memory) (a : Nat) : (m.erase a).read a = Memory.unlisted a := by
  induction m with
  | nil => rfl
  | cons c m ih =>
    obtain ⟨k, b⟩ := c
    by_cases h : k = a
    · simpa [Memory.erase, List.filter_cons, h] using ih
    · simpa [Memory.erase, List.filter_cons, h, Memory.read] using ih

theorem Memory.read_erase_other (m : Memory) {a c : Nat} (h : c ≠ a) : (m.erase a).read c = m.read c := by
  induction m with
  | nil => rfl
  | cons e m ih =>
    obtain ⟨k, b⟩ := e
    by_cases hk : k = a
    · subst hk
      simpa [Memory.erase, List.filter_cons, Memory.read, Ne.symm h] using ih
    · have : Memory.erase ((k, b) :: m) a = (k, b) :: Memory.erase m a := by
        simp [Memory.erase, hk]
      simp only [this, Memory.read, ih]

theorem Memory.read_place_other (m : Memory) (b : Byte) {a c : Nat} (h : c ≠ a) :
    (m.place a b).read c = m.read c := by
  induction m with
  | nil => simp [Memory.place, Memory.read, Ne.symm h]
  | cons e m ih =>
    obtain ⟨k, v⟩ := e
    simp only [Memory.place]
    split
    · simp [Memory.read, Ne.symm h]
    · simp only [Memory.read, ih]

theorem Memory.read_place_same (m : Memory) (a : Nat) (b : Byte) (h : ∀ c ∈ m, c.1 ≠ a) :
    (m.place a b).read a = b := by
  induction m with
  | nil => simp [Memory.place, Memory.read]
  | cons e m ih =>
    obtain ⟨k, v⟩ := e
    have hk : k ≠ a := h (k, v) (by simp)
    simp only [Memory.place]
    split
    · simp [Memory.read]
    · simp only [Memory.read, hk, if_false]
      exact ih fun c hc => h c (by simp [hc])

theorem Memory.erase_free (m : Memory) (a : Nat) : ∀ c ∈ m.erase a, c.1 ≠ a := by
  intro c hc
  simpa using (List.mem_filter.mp hc).2

/-- A read after a write to the same address gives the byte written. -/
@[simp] theorem Memory.read_write_same (m : Memory) (a : Nat) (b : Byte) : (m.write a b).read a = b := by
  unfold Memory.write
  split
  · rename_i h
    rw [Memory.read_erase_same, h]
  · exact Memory.read_place_same _ _ _ (Memory.erase_free m a)

/-- A write leaves every other address alone. -/
theorem Memory.read_write_other (m : Memory) (b : Byte) {a c : Nat} (h : c ≠ a) :
    (m.write a b).read c = m.read c := by
  unfold Memory.write
  split
  · exact Memory.read_erase_other m h
  · rw [Memory.read_place_other _ _ h, Memory.read_erase_other m h]

/-- What `writeBytes` does, whole: the bytes written at their addresses, every other address as before. -/
theorem Memory.read_writeBytes (m : Memory) (a : Nat) (bs : List Byte) (c : Nat) :
    (m.writeBytes a bs).read c =
      if h : a ≤ c ∧ c - a < bs.length then bs[c - a]'h.2 else m.read c := by
  induction bs generalizing m a with
  | nil => simp [Memory.writeBytes]
  | cons b bs ih =>
    rw [Memory.writeBytes, ih]
    by_cases h1 : a + 1 ≤ c ∧ c - (a + 1) < bs.length
    · have h2 : a ≤ c ∧ c - a < (b :: bs).length := by simp only [List.length_cons]; omega
      have h3 : c - a = (c - (a + 1)) + 1 := by omega
      rw [dif_pos h1, dif_pos h2]
      simp only [h3, List.getElem_cons_succ]
    · rw [dif_neg h1]
      by_cases h4 : c = a
      · subst h4; simp
      · have h2 : ¬ (a ≤ c ∧ c - a < (b :: bs).length) := by simp only [List.length_cons]; omega
        rw [dif_neg h2, Memory.read_write_other _ _ h4]

@[simp] theorem Memory.length_readBytes (m : Memory) (a n : Nat) : (m.readBytes a n).length = n := by
  simp [Memory.readBytes]

@[simp] theorem Memory.getElem_readBytes (m : Memory) (a n d : Nat) (h : d < (m.readBytes a n).length) :
    (m.readBytes a n)[d] = m.read (a + d) := by
  simp [Memory.readBytes]

/-! ## The canonical form -/

theorem Memory.mem_place (m : Memory) (a : Nat) (b : Byte) (c : Host.Cell) :
    c ∈ m.place a b ↔ c = (a, b) ∨ c ∈ m := by
  induction m with
  | nil => simp [Memory.place]
  | cons e m ih =>
    obtain ⟨k, v⟩ := e
    simp only [Memory.place]
    split
    · simp
    · simp only [List.mem_cons, ih]
      tauto

theorem Memory.place_rising (m : Memory) (a : Nat) (b : Byte) (h : m.Pairwise fun c d => c.1 < d.1)
    (hf : ∀ c ∈ m, c.1 ≠ a) : (m.place a b).Pairwise fun c d => c.1 < d.1 := by
  induction m with
  | nil => simp [Memory.place]
  | cons e m ih =>
    obtain ⟨k, v⟩ := e
    obtain ⟨hk, hm⟩ := List.pairwise_cons.mp h
    have hka : k ≠ a := hf (k, v) (by simp)
    simp only [Memory.place]
    split
    · rename_i hlt
      refine List.pairwise_cons.mpr ⟨?_, h⟩
      intro c hc
      rcases List.mem_cons.mp hc with rfl | hc
      · exact hlt
      · exact lt_trans hlt (hk c hc)
    · refine List.pairwise_cons.mpr ⟨?_, ih hm fun c hc => hf c (by simp [hc])⟩
      intro c hc
      rcases (Memory.mem_place m a b c).mp hc with rfl | hc
      · simp only; omega
      · exact hk c hc

/-- Every write inside the address space keeps the canonical form. -/
theorem Memory.write_wf {m : Memory} (h : m.wf) {a : Nat} (ha : a < Config.memSize) (b : Byte) :
    (m.write a b).wf := by
  have he : (m.erase a).Pairwise fun c d => c.1 < d.1 := h.1.filter _
  have hc : ∀ c ∈ m.erase a, c.1 < Config.memSize ∧ c.2 ≠ Memory.unlisted c.1 := fun c hc =>
    h.2 c (List.mem_filter.mp hc).1
  unfold Memory.write
  split
  · exact ⟨he, hc⟩
  · rename_i hb
    refine ⟨Memory.place_rising _ _ _ he (Memory.erase_free m a), fun c hm => ?_⟩
    rcases (Memory.mem_place _ _ _ _).mp hm with rfl | hm
    · exact ⟨ha, hb⟩
    · exact hc c hm

/-- So does a run of writes that stays inside. -/
theorem Memory.writeBytes_wf {m : Memory} (h : m.wf) (a : Nat) (bs : List Byte)
    (ha : a + bs.length ≤ Config.memSize) : (m.writeBytes a bs).wf := by
  induction bs generalizing m a with
  | nil => exact h
  | cons b bs ih =>
    simp only [List.length_cons] at ha
    exact ih (Memory.write_wf h (by omega) b) (a + 1) (by omega)

/-- The memory of `State.reset` has the canonical form. -/
theorem reset_memory_wf : State.reset.mem.wf := by decide

/-- Two memories in canonical form that read alike everywhere are the same list. -/
theorem Memory.wf_ext {m n : Memory} (hm : m.wf) (hn : n.wf) (h : ∀ a, m.read a = n.read a) : m = n := by
  induction m generalizing n with
  | nil =>
    cases n with
    | nil => rfl
    | cons e n =>
      have := h e.1
      simp only [Memory.read, if_true] at this
      exact absurd this.symm (hn.2 e (by simp)).2
  | cons d m ih =>
    have low : ∀ {c : Host.Cell} {l : Memory}, Memory.wf (c :: l) → ∀ a, a < c.1 → Memory.read (c :: l) a = Memory.unlisted a := by
      intro c l hw a ha
      have key : ∀ l' : Memory, (∀ e ∈ l', a < e.1) → Memory.read l' a = Memory.unlisted a := by
        intro l'
        induction l' with
        | nil => intro _; rfl
        | cons e l' ihl =>
          intro hl
          have he : e.1 ≠ a := (hl e (by simp)).ne'
          simp only [Memory.read, he, if_false]
          exact ihl fun x hx => hl x (by simp [hx])
      refine key _ fun e he => ?_
      rcases List.mem_cons.mp he with rfl | he
      · exact ha
      · exact lt_trans ha ((List.pairwise_cons.mp hw.1).1 e he)
    cases n with
    | nil =>
      have := h d.1
      simp only [Memory.read, if_true] at this
      exact absurd this (hm.2 d (by simp)).2
    | cons e n =>
      have hd := (hm.2 d (by simp)).2
      have hee := (hn.2 e (by simp)).2
      have hk : d.1 = e.1 := by
        rcases lt_trichotomy d.1 e.1 with hlt | heq | hgt
        · have := h d.1
          rw [low hn d.1 hlt] at this
          simp only [Memory.read, if_true] at this
          exact absurd this hd
        · exact heq
        · have := h e.1
          rw [low hm e.1 hgt] at this
          simp only [Memory.read, if_true] at this
          exact absurd this.symm hee
      have hv : d.2 = e.2 := by
        have := h d.1
        simpa [Memory.read, hk] using this
      have hde : d = e := Prod.ext hk hv
      subst hde
      obtain ⟨hd1, hm1⟩ := List.pairwise_cons.mp hm.1
      obtain ⟨hd2, hn1⟩ := List.pairwise_cons.mp hn.1
      congr 1
      refine ih ⟨hm1, fun c hc => hm.2 c (by simp [hc])⟩ ⟨hn1, fun c hc => hn.2 c (by simp [hc])⟩ fun a => ?_
      by_cases ha : d.1 = a
      · subst ha
        have none : ∀ l : Memory, (∀ c ∈ l, d.1 < c.1) → Memory.read l d.1 = Memory.unlisted d.1 := by
          intro l
          induction l with
          | nil => intro _; rfl
          | cons c l ihl =>
            intro hl
            have hc : c.1 ≠ d.1 := (hl c (by simp)).ne'
            simp only [Memory.read, hc, if_false]
            exact ihl fun x hx => hl x (by simp [hx])
        rw [none m hd1, none n hd2]
      · have := h a
        simpa [Memory.read, ha] using this

end Sys2Proof.Machine
end

