-- ==== Sys2Proof/Laws/State.lean ====
section
/-! SUPPORT. What each named update does to each field of the state, one lemma per field and update, and the two
views `reg` and `key` of the register file and the keypad. -/

namespace Sys2Proof.Machine

variable (s : State)

/-! ### setReg -/

@[simp] theorem State.setReg_v (x : Reg) (b : Byte) : (s.setReg x b).v = s.v.set x.val b := rfl
@[simp] theorem State.setReg_index (x : Reg) (b : Byte) : (s.setReg x b).index = s.index := rfl
@[simp] theorem State.setReg_pc (x : Reg) (b : Byte) : (s.setReg x b).pc = s.pc := rfl
@[simp] theorem State.setReg_stack (x : Reg) (b : Byte) : (s.setReg x b).stack = s.stack := rfl
@[simp] theorem State.setReg_dt (x : Reg) (b : Byte) : (s.setReg x b).dt = s.dt := rfl
@[simp] theorem State.setReg_st (x : Reg) (b : Byte) : (s.setReg x b).st = s.st := rfl
@[simp] theorem State.setReg_display (x : Reg) (b : Byte) : (s.setReg x b).display = s.display := rfl
@[simp] theorem State.setReg_keys (x : Reg) (b : Byte) : (s.setReg x b).keys = s.keys := rfl
@[simp] theorem State.setReg_wait (x : Reg) (b : Byte) : (s.setReg x b).wait = s.wait := rfl
@[simp] theorem State.setReg_ctrl (x : Reg) (b : Byte) : (s.setReg x b).ctrl = s.ctrl := rfl
@[simp] theorem State.setReg_err (x : Reg) (b : Byte) : (s.setReg x b).err = s.err := rfl
@[simp] theorem State.setReg_mem (x : Reg) (b : Byte) : (s.setReg x b).mem = s.mem := rfl
@[simp] theorem State.setReg_notes (x : Reg) (b : Byte) : (s.setReg x b).notes = s.notes := rfl
@[simp] theorem State.setReg_agenda (x : Reg) (b : Byte) : (s.setReg x b).agenda = s.agenda := rfl
@[simp] theorem State.setReg_draws (x : Reg) (b : Byte) : (s.setReg x b).draws = s.draws := rfl
@[simp] theorem State.setReg_instrDelayMs (x : Reg) (b : Byte) : (s.setReg x b).instrDelayMs = s.instrDelayMs := rfl
@[simp] theorem State.setReg_key (x : Reg) (b : Byte) (q : Key) : (s.setReg x b).key q = s.key q := rfl

/-! ### setIndex -/

@[simp] theorem State.setIndex_v (a : Word) : (s.setIndex a).v = s.v := rfl
@[simp] theorem State.setIndex_index (a : Word) : (s.setIndex a).index = a := rfl
@[simp] theorem State.setIndex_pc (a : Word) : (s.setIndex a).pc = s.pc := rfl
@[simp] theorem State.setIndex_stack (a : Word) : (s.setIndex a).stack = s.stack := rfl
@[simp] theorem State.setIndex_dt (a : Word) : (s.setIndex a).dt = s.dt := rfl
@[simp] theorem State.setIndex_st (a : Word) : (s.setIndex a).st = s.st := rfl
@[simp] theorem State.setIndex_display (a : Word) : (s.setIndex a).display = s.display := rfl
@[simp] theorem State.setIndex_keys (a : Word) : (s.setIndex a).keys = s.keys := rfl
@[simp] theorem State.setIndex_wait (a : Word) : (s.setIndex a).wait = s.wait := rfl
@[simp] theorem State.setIndex_ctrl (a : Word) : (s.setIndex a).ctrl = s.ctrl := rfl
@[simp] theorem State.setIndex_err (a : Word) : (s.setIndex a).err = s.err := rfl
@[simp] theorem State.setIndex_mem (a : Word) : (s.setIndex a).mem = s.mem := rfl
@[simp] theorem State.setIndex_notes (a : Word) : (s.setIndex a).notes = s.notes := rfl
@[simp] theorem State.setIndex_agenda (a : Word) : (s.setIndex a).agenda = s.agenda := rfl
@[simp] theorem State.setIndex_draws (a : Word) : (s.setIndex a).draws = s.draws := rfl
@[simp] theorem State.setIndex_instrDelayMs (a : Word) : (s.setIndex a).instrDelayMs = s.instrDelayMs := rfl
@[simp] theorem State.setIndex_reg (a : Word) (r : Reg) : (s.setIndex a).reg r = s.reg r := rfl
@[simp] theorem State.setIndex_key (a : Word) (q : Key) : (s.setIndex a).key q = s.key q := rfl

/-! ### setPc -/

@[simp] theorem State.setPc_v (a : Word) : (s.setPc a).v = s.v := rfl
@[simp] theorem State.setPc_index (a : Word) : (s.setPc a).index = s.index := rfl
@[simp] theorem State.setPc_pc (a : Word) : (s.setPc a).pc = a := rfl
@[simp] theorem State.setPc_stack (a : Word) : (s.setPc a).stack = s.stack := rfl
@[simp] theorem State.setPc_dt (a : Word) : (s.setPc a).dt = s.dt := rfl
@[simp] theorem State.setPc_st (a : Word) : (s.setPc a).st = s.st := rfl
@[simp] theorem State.setPc_display (a : Word) : (s.setPc a).display = s.display := rfl
@[simp] theorem State.setPc_keys (a : Word) : (s.setPc a).keys = s.keys := rfl
@[simp] theorem State.setPc_wait (a : Word) : (s.setPc a).wait = s.wait := rfl
@[simp] theorem State.setPc_ctrl (a : Word) : (s.setPc a).ctrl = s.ctrl := rfl
@[simp] theorem State.setPc_err (a : Word) : (s.setPc a).err = s.err := rfl
@[simp] theorem State.setPc_mem (a : Word) : (s.setPc a).mem = s.mem := rfl
@[simp] theorem State.setPc_notes (a : Word) : (s.setPc a).notes = s.notes := rfl
@[simp] theorem State.setPc_agenda (a : Word) : (s.setPc a).agenda = s.agenda := rfl
@[simp] theorem State.setPc_draws (a : Word) : (s.setPc a).draws = s.draws := rfl
@[simp] theorem State.setPc_instrDelayMs (a : Word) : (s.setPc a).instrDelayMs = s.instrDelayMs := rfl
@[simp] theorem State.setPc_reg (a : Word) (r : Reg) : (s.setPc a).reg r = s.reg r := rfl
@[simp] theorem State.setPc_key (a : Word) (q : Key) : (s.setPc a).key q = s.key q := rfl

/-! ### setStack -/

@[simp] theorem State.setStack_v (k : List Word) : (s.setStack k).v = s.v := rfl
@[simp] theorem State.setStack_index (k : List Word) : (s.setStack k).index = s.index := rfl
@[simp] theorem State.setStack_pc (k : List Word) : (s.setStack k).pc = s.pc := rfl
@[simp] theorem State.setStack_stack (k : List Word) : (s.setStack k).stack = k := rfl
@[simp] theorem State.setStack_dt (k : List Word) : (s.setStack k).dt = s.dt := rfl
@[simp] theorem State.setStack_st (k : List Word) : (s.setStack k).st = s.st := rfl
@[simp] theorem State.setStack_display (k : List Word) : (s.setStack k).display = s.display := rfl
@[simp] theorem State.setStack_keys (k : List Word) : (s.setStack k).keys = s.keys := rfl
@[simp] theorem State.setStack_wait (k : List Word) : (s.setStack k).wait = s.wait := rfl
@[simp] theorem State.setStack_ctrl (k : List Word) : (s.setStack k).ctrl = s.ctrl := rfl
@[simp] theorem State.setStack_err (k : List Word) : (s.setStack k).err = s.err := rfl
@[simp] theorem State.setStack_mem (k : List Word) : (s.setStack k).mem = s.mem := rfl
@[simp] theorem State.setStack_notes (k : List Word) : (s.setStack k).notes = s.notes := rfl
@[simp] theorem State.setStack_agenda (k : List Word) : (s.setStack k).agenda = s.agenda := rfl
@[simp] theorem State.setStack_draws (k : List Word) : (s.setStack k).draws = s.draws := rfl
@[simp] theorem State.setStack_instrDelayMs (k : List Word) : (s.setStack k).instrDelayMs = s.instrDelayMs := rfl
@[simp] theorem State.setStack_reg (k : List Word) (r : Reg) : (s.setStack k).reg r = s.reg r := rfl
@[simp] theorem State.setStack_key (k : List Word) (q : Key) : (s.setStack k).key q = s.key q := rfl

/-! ### setDt -/

@[simp] theorem State.setDt_v (b : Byte) : (s.setDt b).v = s.v := rfl
@[simp] theorem State.setDt_index (b : Byte) : (s.setDt b).index = s.index := rfl
@[simp] theorem State.setDt_pc (b : Byte) : (s.setDt b).pc = s.pc := rfl
@[simp] theorem State.setDt_stack (b : Byte) : (s.setDt b).stack = s.stack := rfl
@[simp] theorem State.setDt_dt (b : Byte) : (s.setDt b).dt = b := rfl
@[simp] theorem State.setDt_st (b : Byte) : (s.setDt b).st = s.st := rfl
@[simp] theorem State.setDt_display (b : Byte) : (s.setDt b).display = s.display := rfl
@[simp] theorem State.setDt_keys (b : Byte) : (s.setDt b).keys = s.keys := rfl
@[simp] theorem State.setDt_wait (b : Byte) : (s.setDt b).wait = s.wait := rfl
@[simp] theorem State.setDt_ctrl (b : Byte) : (s.setDt b).ctrl = s.ctrl := rfl
@[simp] theorem State.setDt_err (b : Byte) : (s.setDt b).err = s.err := rfl
@[simp] theorem State.setDt_mem (b : Byte) : (s.setDt b).mem = s.mem := rfl
@[simp] theorem State.setDt_notes (b : Byte) : (s.setDt b).notes = s.notes := rfl
@[simp] theorem State.setDt_agenda (b : Byte) : (s.setDt b).agenda = s.agenda := rfl
@[simp] theorem State.setDt_draws (b : Byte) : (s.setDt b).draws = s.draws := rfl
@[simp] theorem State.setDt_instrDelayMs (b : Byte) : (s.setDt b).instrDelayMs = s.instrDelayMs := rfl
@[simp] theorem State.setDt_reg (b : Byte) (r : Reg) : (s.setDt b).reg r = s.reg r := rfl
@[simp] theorem State.setDt_key (b : Byte) (q : Key) : (s.setDt b).key q = s.key q := rfl

/-! ### setSt -/

@[simp] theorem State.setSt_v (b : Byte) : (s.setSt b).v = s.v := rfl
@[simp] theorem State.setSt_index (b : Byte) : (s.setSt b).index = s.index := rfl
@[simp] theorem State.setSt_pc (b : Byte) : (s.setSt b).pc = s.pc := rfl
@[simp] theorem State.setSt_stack (b : Byte) : (s.setSt b).stack = s.stack := rfl
@[simp] theorem State.setSt_dt (b : Byte) : (s.setSt b).dt = s.dt := rfl
@[simp] theorem State.setSt_st (b : Byte) : (s.setSt b).st = b := rfl
@[simp] theorem State.setSt_display (b : Byte) : (s.setSt b).display = s.display := rfl
@[simp] theorem State.setSt_keys (b : Byte) : (s.setSt b).keys = s.keys := rfl
@[simp] theorem State.setSt_wait (b : Byte) : (s.setSt b).wait = s.wait := rfl
@[simp] theorem State.setSt_ctrl (b : Byte) : (s.setSt b).ctrl = s.ctrl := rfl
@[simp] theorem State.setSt_err (b : Byte) : (s.setSt b).err = s.err := rfl
@[simp] theorem State.setSt_mem (b : Byte) : (s.setSt b).mem = s.mem := rfl
@[simp] theorem State.setSt_notes (b : Byte) : (s.setSt b).notes = s.notes := rfl
@[simp] theorem State.setSt_agenda (b : Byte) : (s.setSt b).agenda = s.agenda := rfl
@[simp] theorem State.setSt_draws (b : Byte) : (s.setSt b).draws = s.draws := rfl
@[simp] theorem State.setSt_instrDelayMs (b : Byte) : (s.setSt b).instrDelayMs = s.instrDelayMs := rfl
@[simp] theorem State.setSt_reg (b : Byte) (r : Reg) : (s.setSt b).reg r = s.reg r := rfl
@[simp] theorem State.setSt_key (b : Byte) (q : Key) : (s.setSt b).key q = s.key q := rfl

/-! ### setDisplay -/

@[simp] theorem State.setDisplay_v (d : Display) : (s.setDisplay d).v = s.v := rfl
@[simp] theorem State.setDisplay_index (d : Display) : (s.setDisplay d).index = s.index := rfl
@[simp] theorem State.setDisplay_pc (d : Display) : (s.setDisplay d).pc = s.pc := rfl
@[simp] theorem State.setDisplay_stack (d : Display) : (s.setDisplay d).stack = s.stack := rfl
@[simp] theorem State.setDisplay_dt (d : Display) : (s.setDisplay d).dt = s.dt := rfl
@[simp] theorem State.setDisplay_st (d : Display) : (s.setDisplay d).st = s.st := rfl
@[simp] theorem State.setDisplay_display (d : Display) : (s.setDisplay d).display = d := rfl
@[simp] theorem State.setDisplay_keys (d : Display) : (s.setDisplay d).keys = s.keys := rfl
@[simp] theorem State.setDisplay_wait (d : Display) : (s.setDisplay d).wait = s.wait := rfl
@[simp] theorem State.setDisplay_ctrl (d : Display) : (s.setDisplay d).ctrl = s.ctrl := rfl
@[simp] theorem State.setDisplay_err (d : Display) : (s.setDisplay d).err = s.err := rfl
@[simp] theorem State.setDisplay_mem (d : Display) : (s.setDisplay d).mem = s.mem := rfl
@[simp] theorem State.setDisplay_notes (d : Display) : (s.setDisplay d).notes = s.notes := rfl
@[simp] theorem State.setDisplay_agenda (d : Display) : (s.setDisplay d).agenda = s.agenda := rfl
@[simp] theorem State.setDisplay_draws (d : Display) : (s.setDisplay d).draws = s.draws := rfl
@[simp] theorem State.setDisplay_instrDelayMs (d : Display) : (s.setDisplay d).instrDelayMs = s.instrDelayMs := rfl
@[simp] theorem State.setDisplay_reg (d : Display) (r : Reg) : (s.setDisplay d).reg r = s.reg r := rfl
@[simp] theorem State.setDisplay_key (d : Display) (q : Key) : (s.setDisplay d).key q = s.key q := rfl

/-! ### setKey -/

@[simp] theorem State.setKey_v (k : Key) (b : Bool) : (s.setKey k b).v = s.v := rfl
@[simp] theorem State.setKey_index (k : Key) (b : Bool) : (s.setKey k b).index = s.index := rfl
@[simp] theorem State.setKey_pc (k : Key) (b : Bool) : (s.setKey k b).pc = s.pc := rfl
@[simp] theorem State.setKey_stack (k : Key) (b : Bool) : (s.setKey k b).stack = s.stack := rfl
@[simp] theorem State.setKey_dt (k : Key) (b : Bool) : (s.setKey k b).dt = s.dt := rfl
@[simp] theorem State.setKey_st (k : Key) (b : Bool) : (s.setKey k b).st = s.st := rfl
@[simp] theorem State.setKey_display (k : Key) (b : Bool) : (s.setKey k b).display = s.display := rfl
@[simp] theorem State.setKey_keys (k : Key) (b : Bool) : (s.setKey k b).keys = s.keys.set k.val b := rfl
@[simp] theorem State.setKey_wait (k : Key) (b : Bool) : (s.setKey k b).wait = s.wait := rfl
@[simp] theorem State.setKey_ctrl (k : Key) (b : Bool) : (s.setKey k b).ctrl = s.ctrl := rfl
@[simp] theorem State.setKey_err (k : Key) (b : Bool) : (s.setKey k b).err = s.err := rfl
@[simp] theorem State.setKey_mem (k : Key) (b : Bool) : (s.setKey k b).mem = s.mem := rfl
@[simp] theorem State.setKey_notes (k : Key) (b : Bool) : (s.setKey k b).notes = s.notes := rfl
@[simp] theorem State.setKey_agenda (k : Key) (b : Bool) : (s.setKey k b).agenda = s.agenda := rfl
@[simp] theorem State.setKey_draws (k : Key) (b : Bool) : (s.setKey k b).draws = s.draws := rfl
@[simp] theorem State.setKey_instrDelayMs (k : Key) (b : Bool) : (s.setKey k b).instrDelayMs = s.instrDelayMs := rfl
@[simp] theorem State.setKey_reg (k : Key) (b : Bool) (r : Reg) : (s.setKey k b).reg r = s.reg r := rfl

/-! ### setWait -/

@[simp] theorem State.setWait_v (w : Wait) : (s.setWait w).v = s.v := rfl
@[simp] theorem State.setWait_index (w : Wait) : (s.setWait w).index = s.index := rfl
@[simp] theorem State.setWait_pc (w : Wait) : (s.setWait w).pc = s.pc := rfl
@[simp] theorem State.setWait_stack (w : Wait) : (s.setWait w).stack = s.stack := rfl
@[simp] theorem State.setWait_dt (w : Wait) : (s.setWait w).dt = s.dt := rfl
@[simp] theorem State.setWait_st (w : Wait) : (s.setWait w).st = s.st := rfl
@[simp] theorem State.setWait_display (w : Wait) : (s.setWait w).display = s.display := rfl
@[simp] theorem State.setWait_keys (w : Wait) : (s.setWait w).keys = s.keys := rfl
@[simp] theorem State.setWait_wait (w : Wait) : (s.setWait w).wait = w := rfl
@[simp] theorem State.setWait_ctrl (w : Wait) : (s.setWait w).ctrl = s.ctrl := rfl
@[simp] theorem State.setWait_err (w : Wait) : (s.setWait w).err = s.err := rfl
@[simp] theorem State.setWait_mem (w : Wait) : (s.setWait w).mem = s.mem := rfl
@[simp] theorem State.setWait_notes (w : Wait) : (s.setWait w).notes = s.notes := rfl
@[simp] theorem State.setWait_agenda (w : Wait) : (s.setWait w).agenda = s.agenda := rfl
@[simp] theorem State.setWait_draws (w : Wait) : (s.setWait w).draws = s.draws := rfl
@[simp] theorem State.setWait_instrDelayMs (w : Wait) : (s.setWait w).instrDelayMs = s.instrDelayMs := rfl
@[simp] theorem State.setWait_reg (w : Wait) (r : Reg) : (s.setWait w).reg r = s.reg r := rfl
@[simp] theorem State.setWait_key (w : Wait) (q : Key) : (s.setWait w).key q = s.key q := rfl

/-! ### setCtrl -/

@[simp] theorem State.setCtrl_v (c : Ctrl) : (s.setCtrl c).v = s.v := rfl
@[simp] theorem State.setCtrl_index (c : Ctrl) : (s.setCtrl c).index = s.index := rfl
@[simp] theorem State.setCtrl_pc (c : Ctrl) : (s.setCtrl c).pc = s.pc := rfl
@[simp] theorem State.setCtrl_stack (c : Ctrl) : (s.setCtrl c).stack = s.stack := rfl
@[simp] theorem State.setCtrl_dt (c : Ctrl) : (s.setCtrl c).dt = s.dt := rfl
@[simp] theorem State.setCtrl_st (c : Ctrl) : (s.setCtrl c).st = s.st := rfl
@[simp] theorem State.setCtrl_display (c : Ctrl) : (s.setCtrl c).display = s.display := rfl
@[simp] theorem State.setCtrl_keys (c : Ctrl) : (s.setCtrl c).keys = s.keys := rfl
@[simp] theorem State.setCtrl_wait (c : Ctrl) : (s.setCtrl c).wait = s.wait := rfl
@[simp] theorem State.setCtrl_ctrl (c : Ctrl) : (s.setCtrl c).ctrl = c := rfl
@[simp] theorem State.setCtrl_err (c : Ctrl) : (s.setCtrl c).err = s.err := rfl
@[simp] theorem State.setCtrl_mem (c : Ctrl) : (s.setCtrl c).mem = s.mem := rfl
@[simp] theorem State.setCtrl_notes (c : Ctrl) : (s.setCtrl c).notes = s.notes := rfl
@[simp] theorem State.setCtrl_agenda (c : Ctrl) : (s.setCtrl c).agenda = s.agenda := rfl
@[simp] theorem State.setCtrl_draws (c : Ctrl) : (s.setCtrl c).draws = s.draws := rfl
@[simp] theorem State.setCtrl_instrDelayMs (c : Ctrl) : (s.setCtrl c).instrDelayMs = s.instrDelayMs := rfl
@[simp] theorem State.setCtrl_reg (c : Ctrl) (r : Reg) : (s.setCtrl c).reg r = s.reg r := rfl
@[simp] theorem State.setCtrl_key (c : Ctrl) (q : Key) : (s.setCtrl c).key q = s.key q := rfl

/-! ### setErr -/

@[simp] theorem State.setErr_v (e : FaultRecord) : (s.setErr e).v = s.v := rfl
@[simp] theorem State.setErr_index (e : FaultRecord) : (s.setErr e).index = s.index := rfl
@[simp] theorem State.setErr_pc (e : FaultRecord) : (s.setErr e).pc = s.pc := rfl
@[simp] theorem State.setErr_stack (e : FaultRecord) : (s.setErr e).stack = s.stack := rfl
@[simp] theorem State.setErr_dt (e : FaultRecord) : (s.setErr e).dt = s.dt := rfl
@[simp] theorem State.setErr_st (e : FaultRecord) : (s.setErr e).st = s.st := rfl
@[simp] theorem State.setErr_display (e : FaultRecord) : (s.setErr e).display = s.display := rfl
@[simp] theorem State.setErr_keys (e : FaultRecord) : (s.setErr e).keys = s.keys := rfl
@[simp] theorem State.setErr_wait (e : FaultRecord) : (s.setErr e).wait = s.wait := rfl
@[simp] theorem State.setErr_ctrl (e : FaultRecord) : (s.setErr e).ctrl = s.ctrl := rfl
@[simp] theorem State.setErr_err (e : FaultRecord) : (s.setErr e).err = some e := rfl
@[simp] theorem State.setErr_mem (e : FaultRecord) : (s.setErr e).mem = s.mem := rfl
@[simp] theorem State.setErr_notes (e : FaultRecord) : (s.setErr e).notes = s.notes := rfl
@[simp] theorem State.setErr_agenda (e : FaultRecord) : (s.setErr e).agenda = s.agenda := rfl
@[simp] theorem State.setErr_draws (e : FaultRecord) : (s.setErr e).draws = s.draws := rfl
@[simp] theorem State.setErr_instrDelayMs (e : FaultRecord) : (s.setErr e).instrDelayMs = s.instrDelayMs := rfl
@[simp] theorem State.setErr_reg (e : FaultRecord) (r : Reg) : (s.setErr e).reg r = s.reg r := rfl
@[simp] theorem State.setErr_key (e : FaultRecord) (q : Key) : (s.setErr e).key q = s.key q := rfl

/-! ### setMem -/

@[simp] theorem State.setMem_v (m : Memory) : (s.setMem m).v = s.v := rfl
@[simp] theorem State.setMem_index (m : Memory) : (s.setMem m).index = s.index := rfl
@[simp] theorem State.setMem_pc (m : Memory) : (s.setMem m).pc = s.pc := rfl
@[simp] theorem State.setMem_stack (m : Memory) : (s.setMem m).stack = s.stack := rfl
@[simp] theorem State.setMem_dt (m : Memory) : (s.setMem m).dt = s.dt := rfl
@[simp] theorem State.setMem_st (m : Memory) : (s.setMem m).st = s.st := rfl
@[simp] theorem State.setMem_display (m : Memory) : (s.setMem m).display = s.display := rfl
@[simp] theorem State.setMem_keys (m : Memory) : (s.setMem m).keys = s.keys := rfl
@[simp] theorem State.setMem_wait (m : Memory) : (s.setMem m).wait = s.wait := rfl
@[simp] theorem State.setMem_ctrl (m : Memory) : (s.setMem m).ctrl = s.ctrl := rfl
@[simp] theorem State.setMem_err (m : Memory) : (s.setMem m).err = s.err := rfl
@[simp] theorem State.setMem_mem (m : Memory) : (s.setMem m).mem = m := rfl
@[simp] theorem State.setMem_notes (m : Memory) : (s.setMem m).notes = s.notes := rfl
@[simp] theorem State.setMem_agenda (m : Memory) : (s.setMem m).agenda = s.agenda := rfl
@[simp] theorem State.setMem_draws (m : Memory) : (s.setMem m).draws = s.draws := rfl
@[simp] theorem State.setMem_instrDelayMs (m : Memory) : (s.setMem m).instrDelayMs = s.instrDelayMs := rfl
@[simp] theorem State.setMem_reg (m : Memory) (r : Reg) : (s.setMem m).reg r = s.reg r := rfl
@[simp] theorem State.setMem_key (m : Memory) (q : Key) : (s.setMem m).key q = s.key q := rfl

/-! ### emit -/

@[simp] theorem State.emit_v (ns : List Notification) : (s.emit ns).v = s.v := rfl
@[simp] theorem State.emit_index (ns : List Notification) : (s.emit ns).index = s.index := rfl
@[simp] theorem State.emit_pc (ns : List Notification) : (s.emit ns).pc = s.pc := rfl
@[simp] theorem State.emit_stack (ns : List Notification) : (s.emit ns).stack = s.stack := rfl
@[simp] theorem State.emit_dt (ns : List Notification) : (s.emit ns).dt = s.dt := rfl
@[simp] theorem State.emit_st (ns : List Notification) : (s.emit ns).st = s.st := rfl
@[simp] theorem State.emit_display (ns : List Notification) : (s.emit ns).display = s.display := rfl
@[simp] theorem State.emit_keys (ns : List Notification) : (s.emit ns).keys = s.keys := rfl
@[simp] theorem State.emit_wait (ns : List Notification) : (s.emit ns).wait = s.wait := rfl
@[simp] theorem State.emit_ctrl (ns : List Notification) : (s.emit ns).ctrl = s.ctrl := rfl
@[simp] theorem State.emit_err (ns : List Notification) : (s.emit ns).err = s.err := rfl
@[simp] theorem State.emit_mem (ns : List Notification) : (s.emit ns).mem = s.mem := rfl
@[simp] theorem State.emit_notes (ns : List Notification) : (s.emit ns).notes = s.notes ++ ns := rfl
@[simp] theorem State.emit_agenda (ns : List Notification) : (s.emit ns).agenda = s.agenda := rfl
@[simp] theorem State.emit_draws (ns : List Notification) : (s.emit ns).draws = s.draws := rfl
@[simp] theorem State.emit_instrDelayMs (ns : List Notification) : (s.emit ns).instrDelayMs = s.instrDelayMs := rfl
@[simp] theorem State.emit_reg (ns : List Notification) (r : Reg) : (s.emit ns).reg r = s.reg r := rfl
@[simp] theorem State.emit_key (ns : List Notification) (q : Key) : (s.emit ns).key q = s.key q := rfl

/-! ### setAgenda -/

@[simp] theorem State.setAgenda_v (a : List AgentStep) : (s.setAgenda a).v = s.v := rfl
@[simp] theorem State.setAgenda_index (a : List AgentStep) : (s.setAgenda a).index = s.index := rfl
@[simp] theorem State.setAgenda_pc (a : List AgentStep) : (s.setAgenda a).pc = s.pc := rfl
@[simp] theorem State.setAgenda_stack (a : List AgentStep) : (s.setAgenda a).stack = s.stack := rfl
@[simp] theorem State.setAgenda_dt (a : List AgentStep) : (s.setAgenda a).dt = s.dt := rfl
@[simp] theorem State.setAgenda_st (a : List AgentStep) : (s.setAgenda a).st = s.st := rfl
@[simp] theorem State.setAgenda_display (a : List AgentStep) : (s.setAgenda a).display = s.display := rfl
@[simp] theorem State.setAgenda_keys (a : List AgentStep) : (s.setAgenda a).keys = s.keys := rfl
@[simp] theorem State.setAgenda_wait (a : List AgentStep) : (s.setAgenda a).wait = s.wait := rfl
@[simp] theorem State.setAgenda_ctrl (a : List AgentStep) : (s.setAgenda a).ctrl = s.ctrl := rfl
@[simp] theorem State.setAgenda_err (a : List AgentStep) : (s.setAgenda a).err = s.err := rfl
@[simp] theorem State.setAgenda_mem (a : List AgentStep) : (s.setAgenda a).mem = s.mem := rfl
@[simp] theorem State.setAgenda_notes (a : List AgentStep) : (s.setAgenda a).notes = s.notes := rfl
@[simp] theorem State.setAgenda_agenda (a : List AgentStep) : (s.setAgenda a).agenda = a := rfl
@[simp] theorem State.setAgenda_draws (a : List AgentStep) : (s.setAgenda a).draws = s.draws := rfl
@[simp] theorem State.setAgenda_instrDelayMs (a : List AgentStep) : (s.setAgenda a).instrDelayMs = s.instrDelayMs := rfl
@[simp] theorem State.setAgenda_reg (a : List AgentStep) (r : Reg) : (s.setAgenda a).reg r = s.reg r := rfl
@[simp] theorem State.setAgenda_key (a : List AgentStep) (q : Key) : (s.setAgenda a).key q = s.key q := rfl

/-! ### setInstrDelay -/

@[simp] theorem State.setInstrDelay_v (ms : Nat) : (s.setInstrDelay ms).v = s.v := rfl
@[simp] theorem State.setInstrDelay_index (ms : Nat) : (s.setInstrDelay ms).index = s.index := rfl
@[simp] theorem State.setInstrDelay_pc (ms : Nat) : (s.setInstrDelay ms).pc = s.pc := rfl
@[simp] theorem State.setInstrDelay_stack (ms : Nat) : (s.setInstrDelay ms).stack = s.stack := rfl
@[simp] theorem State.setInstrDelay_dt (ms : Nat) : (s.setInstrDelay ms).dt = s.dt := rfl
@[simp] theorem State.setInstrDelay_st (ms : Nat) : (s.setInstrDelay ms).st = s.st := rfl
@[simp] theorem State.setInstrDelay_display (ms : Nat) : (s.setInstrDelay ms).display = s.display := rfl
@[simp] theorem State.setInstrDelay_keys (ms : Nat) : (s.setInstrDelay ms).keys = s.keys := rfl
@[simp] theorem State.setInstrDelay_wait (ms : Nat) : (s.setInstrDelay ms).wait = s.wait := rfl
@[simp] theorem State.setInstrDelay_ctrl (ms : Nat) : (s.setInstrDelay ms).ctrl = s.ctrl := rfl
@[simp] theorem State.setInstrDelay_err (ms : Nat) : (s.setInstrDelay ms).err = s.err := rfl
@[simp] theorem State.setInstrDelay_mem (ms : Nat) : (s.setInstrDelay ms).mem = s.mem := rfl
@[simp] theorem State.setInstrDelay_notes (ms : Nat) : (s.setInstrDelay ms).notes = s.notes := rfl
@[simp] theorem State.setInstrDelay_agenda (ms : Nat) : (s.setInstrDelay ms).agenda = s.agenda := rfl
@[simp] theorem State.setInstrDelay_draws (ms : Nat) : (s.setInstrDelay ms).draws = s.draws := rfl
@[simp] theorem State.setInstrDelay_instrDelayMs (ms : Nat) : (s.setInstrDelay ms).instrDelayMs = ms := rfl
@[simp] theorem State.setInstrDelay_reg (ms : Nat) (r : Reg) : (s.setInstrDelay ms).reg r = s.reg r := rfl
@[simp] theorem State.setInstrDelay_key (ms : Nat) (q : Key) : (s.setInstrDelay ms).key q = s.key q := rfl

/-! ### countDraw -/

@[simp] theorem State.countDraw_v : s.countDraw.v = s.v := rfl
@[simp] theorem State.countDraw_index : s.countDraw.index = s.index := rfl
@[simp] theorem State.countDraw_pc : s.countDraw.pc = s.pc := rfl
@[simp] theorem State.countDraw_stack : s.countDraw.stack = s.stack := rfl
@[simp] theorem State.countDraw_dt : s.countDraw.dt = s.dt := rfl
@[simp] theorem State.countDraw_st : s.countDraw.st = s.st := rfl
@[simp] theorem State.countDraw_display : s.countDraw.display = s.display := rfl
@[simp] theorem State.countDraw_keys : s.countDraw.keys = s.keys := rfl
@[simp] theorem State.countDraw_wait : s.countDraw.wait = s.wait := rfl
@[simp] theorem State.countDraw_ctrl : s.countDraw.ctrl = s.ctrl := rfl
@[simp] theorem State.countDraw_err : s.countDraw.err = s.err := rfl
@[simp] theorem State.countDraw_mem : s.countDraw.mem = s.mem := rfl
@[simp] theorem State.countDraw_notes : s.countDraw.notes = s.notes := rfl
@[simp] theorem State.countDraw_agenda : s.countDraw.agenda = s.agenda := rfl
@[simp] theorem State.countDraw_draws : s.countDraw.draws = s.draws + 1 := rfl
@[simp] theorem State.countDraw_instrDelayMs : s.countDraw.instrDelayMs = s.instrDelayMs := rfl
@[simp] theorem State.countDraw_reg (r : Reg) : s.countDraw.reg r = s.reg r := rfl
@[simp] theorem State.countDraw_key (q : Key) : s.countDraw.key q = s.key q := rfl

/-! ### The views -/

@[simp] theorem State.setReg_reg (x r : Reg) (b : Byte) :
    (s.setReg x b).reg r = if r = x then b else s.reg r := by
  simp only [State.reg, State.setReg_v, Vector.getElem_set, Fin.ext_iff]
  split <;> split <;> simp_all

@[simp] theorem State.setKey_key (k q : Key) (b : Bool) :
    (s.setKey k b).key q = if q = k then b else s.key q := by
  simp only [State.key, State.setKey_keys, Vector.getElem_set, Fin.ext_iff]
  split <;> split <;> simp_all

/-! ### complete and raise -/

@[simp] theorem State.complete_v (target : Word) (regs : List Reg) (others : List Notification) :
    (s.complete target regs others).v = s.v := rfl
@[simp] theorem State.complete_index (target : Word) (regs : List Reg) (others : List Notification) :
    (s.complete target regs others).index = s.index := rfl
@[simp] theorem State.complete_pc (target : Word) (regs : List Reg) (others : List Notification) :
    (s.complete target regs others).pc = target := rfl
@[simp] theorem State.complete_stack (target : Word) (regs : List Reg) (others : List Notification) :
    (s.complete target regs others).stack = s.stack := rfl
@[simp] theorem State.complete_dt (target : Word) (regs : List Reg) (others : List Notification) :
    (s.complete target regs others).dt = s.dt := rfl
@[simp] theorem State.complete_st (target : Word) (regs : List Reg) (others : List Notification) :
    (s.complete target regs others).st = s.st := rfl
@[simp] theorem State.complete_display (target : Word) (regs : List Reg) (others : List Notification) :
    (s.complete target regs others).display = s.display := rfl
@[simp] theorem State.complete_keys (target : Word) (regs : List Reg) (others : List Notification) :
    (s.complete target regs others).keys = s.keys := rfl
@[simp] theorem State.complete_wait (target : Word) (regs : List Reg) (others : List Notification) :
    (s.complete target regs others).wait = s.wait := rfl
@[simp] theorem State.complete_ctrl (target : Word) (regs : List Reg) (others : List Notification) :
    (s.complete target regs others).ctrl = s.ctrl := rfl
@[simp] theorem State.complete_err (target : Word) (regs : List Reg) (others : List Notification) :
    (s.complete target regs others).err = s.err := rfl
@[simp] theorem State.complete_mem (target : Word) (regs : List Reg) (others : List Notification) :
    (s.complete target regs others).mem = s.mem := rfl
@[simp] theorem State.complete_notes (target : Word) (regs : List Reg) (others : List Notification) :
    (s.complete target regs others).notes = s.notes ++ (regs.map (fun r => .registerChanged r (s.reg r)) ++ others ++ [.pcChanged target]) := rfl
@[simp] theorem State.complete_agenda (target : Word) (regs : List Reg) (others : List Notification) :
    (s.complete target regs others).agenda = s.agenda := rfl
@[simp] theorem State.complete_draws (target : Word) (regs : List Reg) (others : List Notification) :
    (s.complete target regs others).draws = s.draws := rfl
@[simp] theorem State.complete_instrDelayMs (target : Word) (regs : List Reg) (others : List Notification) :
    (s.complete target regs others).instrDelayMs = s.instrDelayMs := rfl
@[simp] theorem State.complete_reg (target : Word) (regs : List Reg) (others : List Notification) (q : Reg) :
    (s.complete target regs others).reg q = s.reg q := rfl
@[simp] theorem State.complete_key (target : Word) (regs : List Reg) (others : List Notification) (q : Key) :
    (s.complete target regs others).key q = s.key q := rfl

@[simp] theorem State.raise_v (kind : FaultKind) (info : Nat) :
    (s.raise kind info).v = s.v := rfl
@[simp] theorem State.raise_index (kind : FaultKind) (info : Nat) :
    (s.raise kind info).index = s.index := rfl
@[simp] theorem State.raise_pc (kind : FaultKind) (info : Nat) :
    (s.raise kind info).pc = s.pc := rfl
@[simp] theorem State.raise_stack (kind : FaultKind) (info : Nat) :
    (s.raise kind info).stack = s.stack := rfl
@[simp] theorem State.raise_dt (kind : FaultKind) (info : Nat) :
    (s.raise kind info).dt = s.dt := rfl
@[simp] theorem State.raise_st (kind : FaultKind) (info : Nat) :
    (s.raise kind info).st = s.st := rfl
@[simp] theorem State.raise_display (kind : FaultKind) (info : Nat) :
    (s.raise kind info).display = s.display := rfl
@[simp] theorem State.raise_keys (kind : FaultKind) (info : Nat) :
    (s.raise kind info).keys = s.keys := rfl
@[simp] theorem State.raise_wait (kind : FaultKind) (info : Nat) :
    (s.raise kind info).wait = s.wait := rfl
@[simp] theorem State.raise_ctrl (kind : FaultKind) (info : Nat) :
    (s.raise kind info).ctrl = .stopped := rfl
@[simp] theorem State.raise_err (kind : FaultKind) (info : Nat) :
    (s.raise kind info).err = some { kind := kind, info := info, pc := some s.pc } := rfl
@[simp] theorem State.raise_mem (kind : FaultKind) (info : Nat) :
    (s.raise kind info).mem = s.mem := rfl
@[simp] theorem State.raise_notes (kind : FaultKind) (info : Nat) :
    (s.raise kind info).notes = s.notes ++ [.error { kind := kind, info := info, pc := some s.pc }, .stopped] := rfl
@[simp] theorem State.raise_agenda (kind : FaultKind) (info : Nat) :
    (s.raise kind info).agenda = s.agenda := rfl
@[simp] theorem State.raise_draws (kind : FaultKind) (info : Nat) :
    (s.raise kind info).draws = s.draws := rfl
@[simp] theorem State.raise_instrDelayMs (kind : FaultKind) (info : Nat) :
    (s.raise kind info).instrDelayMs = s.instrDelayMs := rfl
@[simp] theorem State.raise_reg (kind : FaultKind) (info : Nat) (q : Reg) :
    (s.raise kind info).reg q = s.reg q := rfl
@[simp] theorem State.raise_key (kind : FaultKind) (info : Nat) (q : Key) :
    (s.raise kind info).key q = s.key q := rfl

end Sys2Proof.Machine
end

