-- ==== Sys2Proof/Laws/Operands.lean ====
section
/-! SUPPORT. What the operand forms do: widened values and low nibbles as numbers, the check of a range, the bytes
of a register dump, and the registers after a load. -/

namespace Sys2Proof.Machine

/-! ## Values -/

@[simp] theorem zextAddr_toNat (nnn : Addr12) : (zextAddr nnn).toNat = nnn.toNat := by
  simp only [zextAddr, BitVec.toNat_setWidth]
  omega

@[simp] theorem zextByte_toNat (b : Byte) : (zextByte b).toNat = b.toNat := by
  simp only [zextByte, BitVec.toNat_setWidth]
  omega

@[simp] theorem lowNibble_val (b : Byte) : (lowNibble b).val = b.toNat % 16 := by
  simp [lowNibble]

theorem glyphAddress_toNat (d : Fin 16) : (glyphAddress d).toNat = 5 * d.val := by
  simp only [glyphAddress, fontBase, glyphBytes, BitVec.toNat_ofNat]
  omega

/-! ## The check of a range (spec/20_memory.md R55) -/

theorem accessFault_eq_none {base m : Nat} : accessFault base m = none ↔ m = 0 ∨ base + m ≤ 0x1000 := by
  simp only [accessFault, ite_eq_right_iff, reduceCtorEq, imp_false]
  omega

theorem accessFault_eq_some {base m a : Nat} :
    accessFault base m = some a ↔ 1 ≤ m ∧ 0xFFF < base + m - 1 ∧ a = max base 0x1000 := by
  simp only [accessFault, Option.ite_none_right_eq_some, Option.some.injEq, and_assoc]
  constructor <;> rintro ⟨h1, h2, h3⟩ <;> exact ⟨h1, h2, h3.symm⟩

theorem withRange_ok {s done : State} {m : Nat} (h : m = 0 ∨ s.index.toNat + m ≤ 0x1000) :
    withRange s m done = .next done := by
  simp only [withRange, accessFault_eq_none.mpr h]

theorem withRange_fault {s done : State} {m : Nat} (h1 : 1 ≤ m) (h2 : 0x1000 < s.index.toNat + m) :
    withRange s m done = .next (s.raise .addressOutOfRange (max s.index.toNat 0x1000)) := by
  have h : accessFault s.index.toNat m = some (max s.index.toNat 0x1000) :=
    accessFault_eq_some.mpr ⟨h1, by omega, rfl⟩
  simp only [withRange, h]

/-- Everything `withRange` can answer. -/
theorem withRange_next {s done t : State} {m : Nat} (h : withRange s m done = .next t) :
    ((m = 0 ∨ s.index.toNat + m ≤ 0x1000) ∧ t = done) ∨
      (1 ≤ m ∧ 0x1000 < s.index.toNat + m ∧
        t = s.raise .addressOutOfRange (max s.index.toNat 0x1000)) := by
  by_cases hm : m = 0 ∨ s.index.toNat + m ≤ 0x1000
  · rw [withRange_ok hm] at h
    exact .inl ⟨hm, (Host.Outcome.next.inj h).symm⟩
  · have h1 : 1 ≤ m := by omega
    have h2 : 0x1000 < s.index.toNat + m := by omega
    rw [withRange_fault h1 h2] at h
    exact .inr ⟨h1, h2, (Host.Outcome.next.inj h).symm⟩

/-! ## Register dump and load -/

@[simp] theorem length_dumpBytes (s : State) (x : Reg) : (dumpBytes s x).length = x.val + 1 := by
  simp only [dumpBytes, List.length_take, Vector.length_toList]
  omega

theorem getElem_dumpBytes (s : State) (x : Reg) (d : Nat) (h : d < (dumpBytes s x).length) :
    (dumpBytes s x)[d] = s.reg ⟨d, by rw [length_dumpBytes] at h; omega⟩ := by
  simp [dumpBytes, State.reg]

@[simp] theorem length_decimalDigits (b : Byte) : (decimalDigits b).length = 3 := rfl

/-- A register after bytes were put into the registers from `i` upward. -/
theorem State.setRegsFrom_reg (s : State) (i : Nat) (bs : List Byte) (r : Reg) :
    (s.setRegsFrom i bs).reg r =
      if h : i ≤ r.val ∧ r.val - i < bs.length then bs[r.val - i]'h.2 else s.reg r := by
  induction bs generalizing s i with
  | nil => simp [State.setRegsFrom]
  | cons b bs ih =>
    rw [State.setRegsFrom]
    split
    · rename_i hi
      rw [ih]
      by_cases h1 : i + 1 ≤ r.val ∧ r.val - (i + 1) < bs.length
      · have h2 : i ≤ r.val ∧ r.val - i < (b :: bs).length := by simp only [List.length_cons]; omega
        have h3 : r.val - i = (r.val - (i + 1)) + 1 := by omega
        rw [dif_pos h1, dif_pos h2]
        simp only [h3, List.getElem_cons_succ]
      · rw [dif_neg h1, State.setReg_reg]
        by_cases h4 : r = ⟨i, hi⟩
        · subst h4; simp
        · have h5 : r.val ≠ i := fun h => h4 (Fin.ext h)
          have h2 : ¬ (i ≤ r.val ∧ r.val - i < (b :: bs).length) := by simp only [List.length_cons]; omega
          rw [dif_neg h2, if_neg h4]
    · rename_i hi
      have h2 : ¬ (i ≤ r.val ∧ r.val - i < (b :: bs).length) := by omega
      rw [dif_neg h2]

/-- Putting bytes into registers writes nothing else. -/
theorem State.setRegsFrom_eq (s : State) (i : Nat) (bs : List Byte) :
    s.setRegsFrom i bs = { s with v := (s.setRegsFrom i bs).v } := by
  induction bs generalizing s i with
  | nil => rfl
  | cons b bs ih =>
    rw [State.setRegsFrom]
    split
    · exact ih (s.setReg _ b) (i + 1)
    · rfl

theorem mem_regsUpTo (x r : Reg) : r ∈ regsUpTo x ↔ r ≤ x := by
  revert x r
  decide

end Sys2Proof.Machine
end

