-- ==== Sys2Proof/Laws/Step.lean ====
section
/-! SUPPORT. What a fetch and an instruction step can do, said once, and small facts of the terms claims use. -/

namespace Sys2Proof.Machine

theorem getLsbD_zero_eq (a : Word) : a.getLsbD 0 = decide (a.toNat % 2 = 1) := by
  simp [BitVec.getLsbD]

/-- A fetch that succeeds. -/
theorem fetch_ok {s : State} (h : Fetchable s.pc) : fetch s = .ok (s.mem.word s.pc.toNat) := by
  obtain ⟨h1, h2⟩ := h
  have h3 : s.pc.getLsbD 0 = false := by rw [getLsbD_zero_eq]; simp [h1]
  have h4 : ¬ 0xFFE < s.pc.toNat := by omega
  simp only [fetch, h3, h4, Bool.false_eq_true, if_false]

/-- A fetch at an odd address. -/
theorem fetch_odd {s : State} (h : s.pc.toNat % 2 = 1) : fetch s = .error (.misalignedPC, s.pc.toNat) := by
  have h3 : s.pc.getLsbD 0 = true := by rw [getLsbD_zero_eq]; simp [h]
  simp only [fetch, h3, if_true]

/-- A fetch at an even address past the last word. -/
theorem fetch_high {s : State} (h1 : s.pc.toNat % 2 = 0) (h2 : 0xFFE < s.pc.toNat) :
    fetch s = .error (.addressOutOfRange, s.pc.toNat) := by
  have h3 : s.pc.getLsbD 0 = false := by rw [getLsbD_zero_eq]; simp [h1]
  simp only [fetch, h3, h2, Bool.false_eq_true, if_false, if_true]

/-- Everything an instruction step can do: the parked step, the delivery of a latched key, a fetch fault, or the
instruction at `PC`. -/
theorem instructionStep_cases (s : State) :
    (∃ x, s.wait = .waiting x ∧ instructionStep s = .next s) ∨
    (∃ x k, s.wait = .keyLatched x k ∧
      instructionStep s = .next ((s.setWait .notWaiting).loadReg x (BitVec.ofNat 8 k.val))) ∨
    (s.wait = .notWaiting ∧ s.pc.toNat % 2 = 1 ∧
      instructionStep s = .next (s.raise .misalignedPC s.pc.toNat)) ∨
    (s.wait = .notWaiting ∧ s.pc.toNat % 2 = 0 ∧ 0xFFE < s.pc.toNat ∧
      instructionStep s = .next (s.raise .addressOutOfRange s.pc.toNat)) ∨
    (s.wait = .notWaiting ∧ Fetchable s.pc ∧
      instructionStep s = exec (decode (s.mem.word s.pc.toNat)) s) := by
  cases hw : s.wait with
  | waiting x => exact .inl ⟨x, rfl, by simp [instructionStep, State.resumeWait, hw]⟩
  | keyLatched x k => exact .inr (.inl ⟨x, k, rfl, by simp [instructionStep, State.resumeWait, hw]⟩)
  | notWaiting =>
    rcases Nat.mod_two_eq_zero_or_one s.pc.toNat with he | ho
    · by_cases hb : 0xFFE < s.pc.toNat
      · exact .inr (.inr (.inr (.inl ⟨rfl, he, hb, by simp [instructionStep, hw, fetch_high he hb]⟩)))
      · have hf : Fetchable s.pc := ⟨he, by omega⟩
        exact .inr (.inr (.inr (.inr ⟨rfl, hf, by simp [instructionStep, hw, fetch_ok hf]⟩)))
    · exact .inr (.inr (.inl ⟨rfl, ho, by simp [instructionStep, hw, fetch_odd ho]⟩))

/-- Taking a fault is what the operation `raise` does (spec/60_exceptions.md R239). -/
theorem raise_takesFault (s : State) (kind : FaultKind) (info : Nat) :
    TakesFault s (s.raise kind info) kind info := by
  refine ⟨rfl, rfl, rfl, fun p hp => ?_⟩
  cases p <;> simp_all [Part.same]

theorem OnlyChanges.refl (s : State) (parts : List Part) : OnlyChanges s s parts := by
  intro p _
  cases p <;> rfl

theorem OnlyChanges.mono {s t : State} {l m : List Part} (h : OnlyChanges s t l) (hs : ∀ p ∈ l, p ∈ m) :
    OnlyChanges s t m := fun p hp => h p fun hl => hp (hs p hl)

theorem mem_bytesAt (a n c : Nat) : .byte c ∈ bytesAt a n ↔ a ≤ c ∧ c < a + n := by
  simp only [bytesAt, List.mem_map, List.mem_range, Part.byte.injEq]
  constructor
  · rintro ⟨d, hd, rfl⟩; omega
  · rintro ⟨h1, h2⟩; exact ⟨c - a, by omega, by omega⟩

/-- The instruction clock in `Running`. -/
theorem instructionClock_running {s : State} (h : s.ctrl = .running) : instructionClock s = instructionStep s := by
  simp only [instructionClock, h]

/-- The instruction clock where it is not enabled (spec/60_exceptions.md R241, R240; log 2). -/
theorem instructionClock_idle {s : State} (h : s.ctrl ≠ .running) : instructionClock s = .next s := by
  unfold instructionClock
  split <;> simp_all

/-- The step with an empty schedule is the instruction clock's. -/
theorem step_empty {s : State} (h : s.agenda = []) : step s = instructionClock s := by
  simp only [step, machineStep, h]

/-- The step with a schedule is that of the agent at its head. -/
theorem step_agent {s : State} {a : AgentStep} {rest : List AgentStep} (h : s.agenda = a :: rest) :
    step s = agentStep a (s.setAgenda rest) := by
  simp only [step, machineStep, h]

end Sys2Proof.Machine
end

