-- ==== Sys2Proof/Laws/Effects.lean ====
section
/-! SUPPORT. What each shared operation of the meanings does, said once: its results, its frame and its reports. -/

namespace Sys2Proof.Machine

/-- One register written, then the next instruction. -/
theorem State.loadReg_effect (s : State) (x : Reg) (b : Byte) :
    (s.loadReg x b).reg x = b ∧ (s.loadReg x b).pc = s.pc + 2#16 ∧
      OnlyChanges s (s.loadReg x b) [.reg x, .pc, .notes] ∧ Reports s (s.loadReg x b) [x] [] := by
  refine ⟨by simp [State.loadReg], by simp [State.loadReg, State.nextPc], fun p hp => ?_, ?_⟩
  · cases p <;> simp_all [Part.same, State.loadReg]
  · simp [Reports, State.loadReg]

/-- A result and then its flag written, then the next instruction. -/
theorem State.loadRegFlag_effect (s : State) (x : Reg) (result flag : Byte) :
    (x ≠ 15 → (s.loadRegFlag x result flag).reg x = result) ∧ (s.loadRegFlag x result flag).reg 15 = flag ∧
      (s.loadRegFlag x result flag).pc = s.pc + 2#16 ∧
      OnlyChanges s (s.loadRegFlag x result flag) [.reg x, .reg 15, .pc, .notes] ∧
      Reports s (s.loadRegFlag x result flag) (if x = 15 then [15] else [x, 15]) [] := by
  refine ⟨fun h => by simp [State.loadRegFlag, State.setResultFlag, vf, h], ?_, ?_, fun p hp => ?_, ?_⟩
  · simp [State.loadRegFlag, State.setResultFlag, vf]
  · simp [State.loadRegFlag, State.setResultFlag, State.nextPc]
  · cases p <;> simp_all [Part.same, State.loadRegFlag, State.setResultFlag, vf]
  · simp only [Reports, State.loadRegFlag, State.complete_notes, State.complete_reg, State.complete_pc]
    rfl

/-- A transfer writes `PC` only. -/
theorem State.jump_effect (s : State) (target : Word) :
    (s.jump target).pc = target ∧ OnlyChanges s (s.jump target) [.pc, .notes] ∧ Reports s (s.jump target) [] [] := by
  refine ⟨by simp [State.jump], fun p hp => ?_, by simp [Reports, State.jump]⟩
  cases p <;> simp_all [Part.same, State.jump]

/-- A skip goes four bytes on when taken, else two. -/
theorem State.skipIf_effect (s : State) (taken : Bool) :
    (s.skipIf taken).pc = (if taken then s.pc + 4#16 else s.pc + 2#16) ∧
      OnlyChanges s (s.skipIf taken) [.pc, .notes] ∧ Reports s (s.skipIf taken) [] [] := by
  obtain ⟨h, frame, told⟩ := s.jump_effect (if taken then s.skipPc else s.nextPc)
  exact ⟨by rw [State.skipIf, h]; rfl, frame, told⟩

/-- `I` written, then the next instruction. -/
theorem State.loadIndex_effect (s : State) (a : Word) :
    (s.loadIndex a).index = a ∧ (s.loadIndex a).pc = s.pc + 2#16 ∧
      OnlyChanges s (s.loadIndex a) [.index, .pc, .notes] ∧ Reports s (s.loadIndex a) [] [.indexChanged a] := by
  refine ⟨by simp [State.loadIndex], by simp [State.loadIndex, State.nextPc], fun p hp => ?_, ?_⟩
  · cases p <;> simp_all [Part.same, State.loadIndex]
  · simp [Reports, State.loadIndex]

/-- Bytes stored at `I` upward, then the next instruction. -/
theorem State.store_effect (s : State) (bs : List Byte) :
    (∀ d, (h : d < bs.length) → (s.store bs).mem.read (s.index.toNat + d) = bs[d]) ∧
      (s.store bs).pc = s.pc + 2#16 ∧
      OnlyChanges s (s.store bs) (bytesAt s.index.toNat bs.length ++ [.pc, .notes]) ∧
      Reports s (s.store bs) [] [] := by
  refine ⟨fun d h => ?_, by simp [State.store, State.nextPc], fun p hp => ?_, by simp [Reports, State.store]⟩
  · simp only [State.store, State.complete_mem, State.setMem_mem, Memory.read_writeBytes]
    rw [dif_pos (by omega)]
    congr 1
    omega
  · simp only [List.mem_append, not_or] at hp
    obtain ⟨hb, hp⟩ := hp
    cases p with
    | byte a =>
      rw [mem_bytesAt] at hb
      simp only [Part.same, State.store, State.complete_mem, State.setMem_mem, Memory.read_writeBytes]
      rw [dif_neg (by omega)]
    | _ => simp_all [Part.same, State.store]

/-- A drawn buffer written with its collision in VF, then the next instruction. -/
theorem State.drawn_effect (s : State) (q : Display × Bool) :
    (s.drawn q).display = q.1 ∧ (s.drawn q).reg 15 = flagOf q.2 ∧ (s.drawn q).pc = s.pc + 2#16 ∧
      OnlyChanges s (s.drawn q) [.display, .reg 15, .pc, .notes] ∧
      Reports s (s.drawn q) [15] [.screenRefresh q.1 q.1.width q.1.height] := by
  refine ⟨by simp [State.drawn], by simp [State.drawn, vf], by simp [State.drawn, State.nextPc], fun p hp => ?_, ?_⟩
  · cases p <;> simp_all [Part.same, State.drawn, vf]
  · simp [Reports, State.drawn, vf, refreshOf]

/-- A tick in `Running` or `Paused` is its two lines (spec/60_exceptions.md R245). -/
theorem tick_live {s : State} (h : s.ctrl ≠ .stopped) : tick s = s.tickDelay.tickSound := by
  unfold tick
  split <;> simp_all

/-- A tick in `Stopped` does nothing. -/
theorem tick_stopped {s : State} (h : s.ctrl = .stopped) : tick s = s := by
  simp only [tick, h]

/-- The state of a new run before its program is loaded (spec/70_reset_and_hazards.md R302, R303): every field the
spec resets is that of reset, and memory reads as it does at reset. -/
theorem newRun_eq (image : List Byte) (s : State) :
    newRun image s = loadProgram image (loadFontSet
      { State.reset with
        notes := s.notes ++ (if s.ctrl = .stopped then [] else [.stopped])
        agenda := s.agenda, draws := s.draws, instrDelayMs := s.instrDelayMs }) := by
  unfold newRun
  cases h : s.ctrl <;> simp [State.stop]

/-- Loading the font over reset memory changes nothing: unlisted addresses read as the font already. -/
theorem loadFontSet_reset (s : State) (h : s.mem = State.reset.mem) : loadFontSet s = s := by
  have e : State.reset.mem.writeBytes fontBase fontTable = State.reset.mem := by decide +kernel
  cases s
  subst h
  simp only [loadFontSet, State.setMem, e]

/-- A request in `Running` or `Paused`. -/
theorem request_live {s : State} (h : s.ctrl ≠ .stopped) (r : Request) : request r s = liveRequest r s := by
  unfold request
  split <;> simp_all

/-- A request in `Stopped`. -/
theorem request_stopped {s : State} (h : s.ctrl = .stopped) (r : Request) :
    request r s = .next (stoppedRequest r s) := by
  simp only [request, h]

end Sys2Proof.Machine
end

