-- ==== Sys2Proof/Laws/OpcodeMap.lean ====
section
/-! SUPPORT. What the four masks of the opcode map (spec/30_encoding.md R74) keep of a word, as numbers. -/

namespace Sys2Proof.Machine

theorem mask_exact (w : Word) : w &&& 0xFFFF#16 = w := by
  ext i hi
  simp only [BitVec.getElem_and]
  interval_cases i <;> simp

theorem mask_op (w : Word) : (w &&& 0xF000#16).toNat = w.toNat / 0x1000 * 0x1000 := by
  have h : w &&& 0xF000#16 = (w >>> 12) <<< 12 := by
    ext i hi
    simp only [BitVec.getElem_and, BitVec.getElem_shiftLeft, BitVec.getElem_ushiftRight]
    interval_cases i <;> simp
  rw [h]
  simp only [BitVec.toNat_shiftLeft, BitVec.toNat_ushiftRight, Nat.shiftLeft_eq, Nat.shiftRight_eq_div_pow]
  omega

theorem mask_op_n (w : Word) :
    (w &&& 0xF00F#16).toNat = w.toNat / 0x1000 * 0x1000 + w.toNat % 0x10 := by
  have h : w &&& 0xF00F#16 = (w &&& 0xF000#16) + (w &&& 0x000F#16) := by
    rw [BitVec.add_eq_or_of_and_eq_zero]
    · ext i hi
      simp only [BitVec.getElem_or, BitVec.getElem_and]
      interval_cases i <;> simp
    · ext i hi
      simp only [BitVec.getElem_and]
      interval_cases i <;> simp
  have hn : (w &&& 0x000F#16).toNat = w.toNat % 0x10 := by
    rw [BitVec.toNat_and]
    exact Nat.and_two_pow_sub_one_eq_mod w.toNat 4
  rw [h, BitVec.toNat_add, mask_op, hn]
  omega

theorem mask_op_kk (w : Word) :
    (w &&& 0xF0FF#16).toNat = w.toNat / 0x1000 * 0x1000 + w.toNat % 0x100 := by
  have h : w &&& 0xF0FF#16 = (w &&& 0xF000#16) + (w &&& 0x00FF#16) := by
    rw [BitVec.add_eq_or_of_and_eq_zero]
    · ext i hi
      simp only [BitVec.getElem_or, BitVec.getElem_and]
      interval_cases i <;> simp
    · ext i hi
      simp only [BitVec.getElem_and]
      interval_cases i <;> simp
  have hn : (w &&& 0x00FF#16).toNat = w.toNat % 0x100 := by
    rw [BitVec.toNat_and]
    exact Nat.and_two_pow_sub_one_eq_mod w.toNat 8
  rw [h, BitVec.toNat_add, mask_op, hn]
  omega

/-- A match of a row as an equation between numbers. -/
theorem matchesRow_iff (w : Word) (row : Word × Word) :
    matchesRow w row = true ↔ (w &&& row.1).toNat = row.2.toNat := by
  rw [BitVec.toNat_inj]
  simp [matchesRow]

end Sys2Proof.Machine
end

