-- ==== Sys2Proof/Laws/PerInstr.lean ====
section
/-! SUPPORT. The family Row: the word the encoder gives an instruction lies on that instruction's row of the opcode
map (spec/30_encoding.md R74), one lemma per constructor. -/

namespace Sys2Proof.Laws.Row

open Sys2Proof.Machine

/-- The encoded word matches the instruction's row of the map; the fallback row has no pattern. -/
def Statement (i : Instr) : Prop :=
  ∀ row ∈ opcodeMap[rowOf i]?, matchesRow (encode i) row = true

/-! The masks of the formats A and XK, XY, and X, on packed words. -/

theorem packA_matches (op : Nibble) (nnn : Addr12) :
    matchesRow (packA op nnn) (0xF000#16, packA op 0) = true := by
  rw [matchesRow_iff, mask_op, packA_toNat, packA_toNat]
  have : (0 : Addr12).toNat = 0 := rfl
  omega

theorem packXK_matches (op : Nibble) (x : Reg) (kk : Byte) :
    matchesRow (packXK op x kk) (0xF000#16, packA op 0) = true := packA_matches op _

theorem packXYN_matches (op : Nibble) (x y : Reg) (n : Nibble) :
    matchesRow (packXYN op x y n) (0xF00F#16, packXYN op 0 0 n) = true := by
  rw [matchesRow_iff, mask_op_n, packXYN_toNat, packXYN_toNat]
  simp only [Fin.val_zero]
  omega

theorem packX_matches (op : Nibble) (x : Reg) (kk : Byte) :
    matchesRow (packXK op x kk) (0xF0FF#16, packXK op 0 kk) = true := by
  rw [matchesRow_iff, mask_op_kk, packXK_toNat, packXK_toNat]
  simp only [Fin.val_zero]
  omega

/-! One lemma per constructor. -/

theorem cls : Statement .cls := by
  rintro row ⟨⟩; decide

theorem ret : Statement .ret := by
  rintro row ⟨⟩; decide

theorem hires : Statement .hires := by
  rintro row ⟨⟩; decide

theorem jp (nnn : Addr12) : Statement (.jp nnn) := by
  rintro row ⟨⟩; exact packA_matches _ nnn

theorem call (nnn : Addr12) : Statement (.call nnn) := by
  rintro row ⟨⟩; exact packA_matches _ nnn

theorem seImm (x : Reg) (kk : Byte) : Statement (.seImm x kk) := by
  rintro row ⟨⟩; exact packXK_matches _ x kk

theorem sneImm (x : Reg) (kk : Byte) : Statement (.sneImm x kk) := by
  rintro row ⟨⟩; exact packXK_matches _ x kk

theorem seReg (x y : Reg) : Statement (.seReg x y) := by
  rintro row ⟨⟩; exact packXYN_matches _ x y _

theorem ldImm (x : Reg) (kk : Byte) : Statement (.ldImm x kk) := by
  rintro row ⟨⟩; exact packXK_matches _ x kk

theorem addImm (x : Reg) (kk : Byte) : Statement (.addImm x kk) := by
  rintro row ⟨⟩; exact packXK_matches _ x kk

theorem ldReg (x y : Reg) : Statement (.ldReg x y) := by
  rintro row ⟨⟩; exact packXYN_matches _ x y _

theorem orReg (x y : Reg) : Statement (.orReg x y) := by
  rintro row ⟨⟩; exact packXYN_matches _ x y _

theorem andReg (x y : Reg) : Statement (.andReg x y) := by
  rintro row ⟨⟩; exact packXYN_matches _ x y _

theorem xorReg (x y : Reg) : Statement (.xorReg x y) := by
  rintro row ⟨⟩; exact packXYN_matches _ x y _

theorem addReg (x y : Reg) : Statement (.addReg x y) := by
  rintro row ⟨⟩; exact packXYN_matches _ x y _

theorem subReg (x y : Reg) : Statement (.subReg x y) := by
  rintro row ⟨⟩; exact packXYN_matches _ x y _

theorem shr (x y : Reg) : Statement (.shr x y) := by
  rintro row ⟨⟩; exact packXYN_matches _ x y _

theorem subnReg (x y : Reg) : Statement (.subnReg x y) := by
  rintro row ⟨⟩; exact packXYN_matches _ x y _

theorem shl (x y : Reg) : Statement (.shl x y) := by
  rintro row ⟨⟩; exact packXYN_matches _ x y _

theorem sneReg (x y : Reg) : Statement (.sneReg x y) := by
  rintro row ⟨⟩; exact packXYN_matches _ x y _

theorem ldIndex (nnn : Addr12) : Statement (.ldIndex nnn) := by
  rintro row ⟨⟩; exact packA_matches _ nnn

theorem jpV0 (nnn : Addr12) : Statement (.jpV0 nnn) := by
  rintro row ⟨⟩; exact packA_matches _ nnn

theorem rnd (x : Reg) (kk : Byte) : Statement (.rnd x kk) := by
  rintro row ⟨⟩; exact packXK_matches _ x kk

theorem drw (x y : Reg) (n : Nibble) : Statement (.drw x y n) := by
  rintro row ⟨⟩; exact packA_matches _ _

theorem skp (x : Reg) : Statement (.skp x) := by
  rintro row ⟨⟩; exact packX_matches _ x _

theorem sknp (x : Reg) : Statement (.sknp x) := by
  rintro row ⟨⟩; exact packX_matches _ x _

theorem ldFromDelay (x : Reg) : Statement (.ldFromDelay x) := by
  rintro row ⟨⟩; exact packX_matches _ x _

theorem ldKey (x : Reg) : Statement (.ldKey x) := by
  rintro row ⟨⟩; exact packX_matches _ x _

theorem ldDelay (x : Reg) : Statement (.ldDelay x) := by
  rintro row ⟨⟩; exact packX_matches _ x _

theorem ldSound (x : Reg) : Statement (.ldSound x) := by
  rintro row ⟨⟩; exact packX_matches _ x _

theorem addIndex (x : Reg) : Statement (.addIndex x) := by
  rintro row ⟨⟩; exact packX_matches _ x _

theorem ldFont (x : Reg) : Statement (.ldFont x) := by
  rintro row ⟨⟩; exact packX_matches _ x _

theorem ldBcd (x : Reg) : Statement (.ldBcd x) := by
  rintro row ⟨⟩; exact packX_matches _ x _

theorem dump (x : Reg) : Statement (.dump x) := by
  rintro row ⟨⟩; exact packX_matches _ x _

theorem load (x : Reg) : Statement (.load x) := by
  rintro row ⟨⟩; exact packX_matches _ x _

theorem unsupported (w : Word) : Statement (.unsupported w) := by
  rintro row ⟨⟩

end Sys2Proof.Laws.Row
end

