-- ==== Sys2Proof/Tests/Slice0.lean ====
section
/-! SUPPORT. Tests: every expected value is one that spec/95_test_vectors.md or a rule states, named in the comment.
Then the witnesses: for every statement with hypotheses, concrete inputs that meet them, clause by clause. -/

open Sys2Proof.Claims

namespace Sys2Proof.Tests

open Sys2Proof.Machine

/-! ## Helpers -/

/-- Reset with these registers written. -/
def regs (l : List (Reg × Byte)) : State := l.foldl (fun s p => s.setReg p.1 p.2) State.reset

/-- Memory bytes put at an address. -/
def poke (s : State) (a : Nat) (bs : List Byte) : State := s.setMem (s.mem.writeBytes a bs)

/-- The answer is a next state that passes the check. -/
def after (r : Result) (check : State → Bool) : Bool :=
  match r with
  | .next t => check t
  | .fault _ => false
  | .refused _ => false

/-- One step with the word placed at `PC`. -/
def runs (w : Nat) (s : State) (check : State → Bool) : Bool := after (step (s.withFetchWord 16 w)) check

/-- A stack of `n` entries `0x202`. -/
def stacked (n : Nat) : State := State.reset.setStack (List.replicate n 0x0202#16)

/-- A fault as recorded by a step at this `PC`. -/
def faulted (kind : FaultKind) (info : Nat) (pc : Word) (t : State) : Bool :=
  decide (t.err = some { kind := kind, info := info, pc := some pc }) && decide (t.ctrl = .stopped) &&
    decide (t.pc = pc)

/-! ## Well-formedness: the one check refuses every ill-formed term -/

/-- A supported word carried by `unsupported` is refused, in each group of R75. -/
theorem test_wf_refuses_supported_words :
    ([0x00E0#16, 0x00EE#16, 0x00FF#16, 0x1228#16, 0x5AB0#16, 0x8127#16, 0x812E#16, 0x9120#16, 0xD120#16, 0xE09E#16,
      0xE1A1#16, 0xF107#16, 0xF165#16].all fun w => (Instr.unsupported w).wf == false) = true := by decide

/-- The words the vectors of spec/95_test_vectors.md 2.1 call unsupported are accepted. -/
theorem test_wf_accepts_unsupported_words :
    ([0x0000#16, 0x00E1#16, 0x00FB#16, 0x5AB1#16, 0x8128#16, 0x812D#16, 0x812F#16, 0x9121#16, 0xE19F#16, 0xE000#16,
      0xF000#16, 0xF130#16, 0xF175#16, 0xFFFF#16].all fun w => (Instr.unsupported w).wf) = true := by decide

/-! ## Decoding: words written out from R74, of every constructor (spec/95_test_vectors.md 2.1) -/

theorem test_decode_group0 :
    decode 0b0000000011100000#16 = .cls ∧ decode 0b0000000011101110#16 = .ret ∧
    decode 0b0000000011111111#16 = .hires := by decide

theorem test_decode_jumps :
    decode 0b0001001000101000#16 = .jp 0x228 ∧ decode 0b0010111111111111#16 = .call 0xFFF ∧
    decode 0b1011001100000000#16 = .jpV0 0x300 := by decide

theorem test_decode_skips :
    decode 0b0011101000000111#16 = .seImm 10 0x07 ∧ decode 0b0100101000000111#16 = .sneImm 10 0x07 ∧
    decode 0b0101101010110000#16 = .seReg 10 11 ∧ decode 0b1001000100100000#16 = .sneReg 1 2 := by decide

theorem test_decode_immediates :
    decode 0b0110101000101111#16 = .ldImm 10 0x2F ∧ decode 0b0111001100000101#16 = .addImm 3 0x05 ∧
    decode 0b1100001111111111#16 = .rnd 3 0xFF := by decide

theorem test_decode_group8 :
    decode 0b1000000100100000#16 = .ldReg 1 2 ∧ decode 0b1000000100100001#16 = .orReg 1 2 ∧
    decode 0b1000000100100010#16 = .andReg 1 2 ∧ decode 0b1000000100100011#16 = .xorReg 1 2 ∧
    decode 0b1000000100100100#16 = .addReg 1 2 ∧ decode 0b1000000100100101#16 = .subReg 1 2 ∧
    decode 0b1000000100100110#16 = .shr 1 2 ∧ decode 0b1000000100100111#16 = .subnReg 1 2 ∧
    decode 0b1000000100101110#16 = .shl 1 2 := by decide

theorem test_decode_index_and_draw :
    decode 0b1010001011110000#16 = .ldIndex 0x2F0 ∧ decode 0b1101000100100000#16 = .drw 1 2 0 ∧
    decode 0b1101000100101111#16 = .drw 1 2 15 := by decide

theorem test_decode_groups_e_f :
    decode 0b1110000010011110#16 = .skp 0 ∧ decode 0b1110000110100001#16 = .sknp 1 ∧
    decode 0b1111000100000111#16 = .ldFromDelay 1 ∧ decode 0b1111000100001010#16 = .ldKey 1 ∧
    decode 0b1111000100010101#16 = .ldDelay 1 ∧ decode 0b1111000100011000#16 = .ldSound 1 ∧
    decode 0b1111000100011110#16 = .addIndex 1 ∧ decode 0b1111000100101001#16 = .ldFont 1 ∧
    decode 0b1111000100110011#16 = .ldBcd 1 ∧ decode 0b1111000101010101#16 = .dump 1 ∧
    decode 0b1111000101100101#16 = .load 1 := by decide

theorem test_decode_unsupported :
    ([0x0000#16, 0x00E1#16, 0x00FE#16, 0x0123#16, 0x00C3#16, 0x00FB#16, 0x00FD#16, 0x5AB1#16, 0x8128#16, 0x8129#16,
      0x812A#16, 0x812B#16, 0x812C#16, 0x812D#16, 0x812F#16, 0x9121#16, 0xE19F#16, 0xE000#16, 0xF000#16, 0xF130#16,
      0xF175#16, 0xF185#16, 0xF266#16, 0xFFFF#16].all fun w => decode w == .unsupported w) = true := by decide

/-- The encoder on the operands of the words above, one per format of R72. -/
theorem test_encode_formats :
    encode .hires = 0x00FF#16 ∧ encode (.call 0xFFF) = 0x2FFF#16 ∧ encode (.seImm 10 0x07) = 0x3A07#16 ∧
    encode (.shl 1 2) = 0x812E#16 ∧ encode (.drw 1 2 15) = 0xD12F#16 ∧ encode (.sknp 1) = 0xE1A1#16 ∧
    encode (.load 1) = 0xF165#16 ∧ encodeBytes (.jp 0x228) = [0x12#8, 0x28#8] := by decide

/-- R70, R52: the first byte is the more significant; one byte alone is no instruction. -/
theorem test_decode_bytes :
    (match decodeBytes [0x12#8, 0x28#8, 0x77#8] with
      | .ok r => r == (.jp 0x228, [0x77#8])
      | .error _ => false) = true ∧
    (match decodeBytes [0x12#8] with
      | .ok _ => false
      | .error e => e == .truncated) = true ∧
    decodeTableWord 16 0x8126 = some (.shr 1 2) := by decide

/-! ## Arithmetic, moves, shifts (2.2) -/

theorem test_ldImm : runs 0x6F55 State.reset (fun t => t.reg 15 == 0x55 && t.pc == 0x202) = true := by decide -- VA2

theorem test_addImm_wraps_without_flag :
    runs 0x7301 (regs [(3, 0xFF), (15, 1)]) (fun t => t.reg 3 == 0 && t.reg 15 == 1) = true := by decide -- VA4

theorem test_ldReg : runs 0x8120 (regs [(2, 7)]) (fun t => t.reg 1 == 7 && t.reg 2 == 7) = true := by decide -- VA5

theorem test_addReg_carry :
    runs 0x8014 (regs [(0, 7), (1, 250)]) (fun t => t.reg 0 == 1 && t.reg 15 == 1) = true := by decide -- VA6

theorem test_addReg_into_vf :
    runs 0x8F14 (regs [(15, 0x80), (1, 0x90)]) (fun t => t.reg 15 == 1) = true ∧
    runs 0x81F4 (regs [(15, 0xFF), (1, 5)]) (fun t => t.reg 1 == 4 && t.reg 15 == 1) = true := by decide -- VA11, VA13

theorem test_subReg_borrow :
    runs 0x8015 (regs [(0, 5), (1, 7)]) (fun t => t.reg 0 == 0xFE && t.reg 15 == 0) = true := by decide -- VA14

theorem test_subReg_equal :
    runs 0x8015 (regs [(0, 7), (1, 7)]) (fun t => t.reg 0 == 0 && t.reg 15 == 1) = true := by decide -- VA16

theorem test_subnReg :
    runs 0x8017 (regs [(0, 5), (1, 7)]) (fun t => t.reg 0 == 2 && t.reg 1 == 7 && t.reg 15 == 1) = true ∧
    runs 0x8017 (regs [(0, 7), (1, 5)]) (fun t => t.reg 0 == 0xFE && t.reg 15 == 0) = true := by decide -- VA19, VA20

theorem test_shr :
    runs 0x8126 (regs [(1, 5), (2, 0xAA)]) (fun t => t.reg 1 == 2 && t.reg 15 == 1 && t.reg 2 == 0xAA) = true ∧
    runs 0x8106 (regs [(1, 0xFF)]) (fun t => t.reg 1 == 0x7F) = true := by decide -- VA22, VA24

theorem test_shl :
    runs 0x812E (regs [(1, 0x81), (2, 0x55)]) (fun t => t.reg 1 == 2 && t.reg 15 == 1 && t.reg 2 == 0x55) = true ∧
    runs 0x810E (regs [(1, 0x40)]) (fun t => t.reg 1 == 0x80 && t.reg 15 == 0) = true := by decide -- VA27, VA28

/-- VA33: RND under the mask 0xFF gives the drawn byte, whatever it is. -/
theorem test_rnd (s : State) :
    ∃ t, exec (.rnd 3 0xFF) s = .next t ∧ t.reg 3 = Config.drawByte s.draws ∧ t.draws = s.draws + 1 :=
  ⟨_, rfl, by simp only [State.loadReg, State.complete_reg, State.setReg_reg]; exact BitVec.and_allOnes, rfl⟩

/-- VA32: RND under the mask 0 gives 0. -/
theorem test_rnd_mask_zero (s : State) : ∃ t, exec (.rnd 3 0x00) s = .next t ∧ t.reg 3 = 0x00#8 :=
  ⟨_, rfl, by simp [State.loadReg]⟩

/-! ## Logic (2.3) -/

theorem test_orReg :
    runs 0x8121 (regs [(1, 0xF0), (2, 0x3C), (15, 1)]) (fun t => t.reg 1 == 0xFC && t.reg 15 == 1) = true := by
  decide -- VL1

theorem test_andReg :
    runs 0x8122 (regs [(1, 0xF0), (2, 0x3C), (15, 1)]) (fun t => t.reg 1 == 0x30 && t.reg 15 == 1) = true := by
  decide -- VL2

theorem test_xorReg :
    runs 0x8123 (regs [(1, 0xF0), (2, 0x3C), (15, 1)]) (fun t => t.reg 1 == 0xCC && t.reg 15 == 1) = true := by
  decide -- VL3

/-! ## Control flow (2.4) -/

theorem test_jp_odd_target : runs 0x1203 State.reset (fun t => t.pc == 0x203 && t.err == none) = true := by
  decide -- VC3

theorem test_jpV0_unreduced : runs 0xBFFF (regs [(0, 0xFF)]) (fun t => t.pc == 0x10FE) = true := by decide -- VC5

theorem test_jpV0_uses_v0 : runs 0xB300 (regs [(3, 0x10)]) (fun t => t.pc == 0x300) = true := by decide -- VC6

theorem test_call_pushes :
    runs 0x2300 ((stacked 15).setPc 0x240) (fun t => t.stack.getLast? == some 0x242 && t.stack.length == 16 &&
      t.pc == 0x300) = true := by decide -- VC8

theorem test_call_overflows :
    runs 0x2300 ((stacked 16).setPc 0x240) (fun t => faulted .stackOverflow 0x240 0x240 t && t.stack.length == 16) =
      true := by decide -- VC9

theorem test_ret_pops :
    runs 0x00EE ((State.reset.setStack [0x202, 0x30A]).setPc 0x400) (fun t => t.stack == [0x202] && t.pc == 0x30A) =
      true := by decide -- VC10

theorem test_ret_underflows : runs 0x00EE State.reset (faulted .stackUnderflow 0x200 0x200) = true := by decide -- VC11

theorem test_seImm :
    runs 0x3A07 (regs [(10, 7)]) (fun t => t.pc == 0x204) = true ∧
    runs 0x3A07 (regs [(10, 8)]) (fun t => t.pc == 0x202) = true := by decide -- VC12, VC13

theorem test_sneImm :
    runs 0x4A07 (regs [(10, 7)]) (fun t => t.pc == 0x202) = true ∧
    runs 0x4A07 (regs [(10, 8)]) (fun t => t.pc == 0x204) = true := by decide -- VC14, VC15

theorem test_seReg :
    runs 0x5120 (regs [(1, 3), (2, 3)]) (fun t => t.pc == 0x204) = true ∧
    runs 0x5120 (regs [(1, 3), (2, 4)]) (fun t => t.pc == 0x202) = true := by decide -- VC16, VC17

theorem test_sneReg :
    runs 0x9120 (regs [(1, 3), (2, 4)]) (fun t => t.pc == 0x204) = true ∧
    runs 0x9120 (regs [(1, 3), (2, 3)]) (fun t => t.pc == 0x202) = true := by decide -- VC19, VC20

/-- VC22: execution at the last word of memory is legal. -/
theorem test_last_word :
    runs 0x6001 (State.reset.setPc 0xFFE) (fun t => t.reg 0 == 1 && t.pc == 0x1000 && t.err == none) = true := by
  decide

/-! ## Index register and memory (2.5) -/

theorem test_ldIndex : runs 0xA2F0 State.reset (fun t => t.index == 0x2F0) = true := by decide -- VM1

theorem test_addIndex :
    runs 0xF11E ((regs [(1, 1)]).setIndex 0x0FFF) (fun t => t.index == 0x1000 && t.reg 15 == 0 && t.err == none) = true ∧
    runs 0xF11E ((regs [(1, 1)]).setIndex 0xFFFF) (fun t => t.index == 0x0000) = true := by decide -- VM3, VM4

theorem test_ldFont :
    runs 0xF329 (regs [(3, 0x0F)]) (fun t => t.index == 0x004B) = true ∧
    runs 0xF329 (regs [(3, 0x1A)]) (fun t => t.index == 0x0032) = true := by decide -- VM6, VM7

theorem test_ldBcd :
    runs 0xF233 ((regs [(2, 42)]).setIndex 0xFFD) (fun t => t.mem.readBytes 0xFFD 3 == [0, 4, 2]) = true ∧
    runs 0xF233 ((regs [(2, 255)]).setIndex 0x300) (fun t => t.mem.readBytes 0x300 3 == [2, 5, 5] &&
      t.index == 0x300) = true := by decide -- VM13, VM11

theorem test_ldBcd_faults :
    runs 0xF233 ((regs [(2, 42)]).setIndex 0xFFE) (fun t => faulted .addressOutOfRange 0x1000 0x200 t &&
      t.mem.readBytes 0xFFE 2 == [0, 0]) = true ∧
    runs 0xF233 ((regs [(2, 42)]).setIndex 0x2345) (faulted .addressOutOfRange 0x2345 0x200) = true := by
  decide -- VM14, VM16

theorem test_dump :
    runs 0xF255 ((regs [(0, 1), (1, 2), (2, 3), (3, 4)]).setIndex 0x400) (fun t =>
      t.mem.readBytes 0x400 4 == [1, 2, 3, 0] && t.index == 0x400) = true := by decide -- VM17

theorem test_dump_faults :
    runs 0xFF55 ((regs [(0, 9)]).setIndex 0xFF1) (fun t => faulted .addressOutOfRange 0x1000 0x200 t &&
      t.mem.read 0xFF1 == 0) = true ∧
    runs 0xFF55 ((regs [(15, 9)]).setIndex 0xFF0) (fun t => t.mem.read 0xFFF == 9) = true := by decide -- VM20, VM19

theorem test_load :
    runs 0xF465 State.reset (fun t => t.v.toList.take 6 == [0xF0, 0x90, 0x90, 0x90, 0xF0, 0x00]) = true ∧
    runs 0xF165 ((poke (regs [(2, 0x77)]) 0x400 [0xAA, 0xBB]).setIndex 0x400) (fun t =>
      t.v.toList.take 3 == [0xAA, 0xBB, 0x77] && t.index == 0x400) = true := by decide -- VM22, VM21

theorem test_load_faults :
    runs 0xF165 ((regs [(0, 3)]).setIndex 0xFFF) (fun t => faulted .addressOutOfRange 0x1000 0x200 t &&
      t.reg 0 == 3) = true := by decide -- VM23

/-! ## Display (2.6) -/

/-- The `n` pixels of a row from a column on. -/
def row (t : State) (r c n : Nat) : List Bool := (List.range n).map fun k => t.display.pixel r (c + k)

/-- Reset with the sprite row 0xFF drawn at the origin (VG5). -/
def lineDrawn : State :=
  (poke (State.reset.setIndex 0x300) 0x300 [0xFF]).setDisplay (State.reset.display.draw 0 0 [0xFF#8]).1

theorem test_drw_glyph :
    runs 0xD015 State.reset (fun t =>
      row t 0 0 5 == [true, true, true, true, false] && row t 1 0 5 == [true, false, false, true, false] &&
      row t 4 0 5 == [true, true, true, true, false] && row t 5 0 5 == [false, false, false, false, false] &&
      t.reg 15 == 0 && t.notes.length == 3) = true := by decide -- VG1

theorem test_drw_collides :
    runs 0xD011 lineDrawn (fun t => row t 0 0 8 == List.replicate 8 false && t.reg 15 == 1) = true ∧
    runs 0xD011 (lineDrawn.setReg 0 4) (fun t =>
      row t 0 0 12 == List.replicate 4 true ++ List.replicate 4 false ++ List.replicate 4 true && t.reg 15 == 1) =
      true := by decide -- VG6, VG7

/-- VG8: both axes wrap; VG18: with the moduli of the extended mode. -/
theorem test_drw_wraps :
    runs 0xD012 (poke ((regs [(0, 60), (1, 31)]).setIndex 0x300) 0x300 [0xFF, 0x81]) (fun t =>
      row t 31 59 5 == [false, true, true, true, true] && row t 31 0 5 == [true, true, true, true, false] &&
      row t 0 59 5 == [false, true, false, false, false] && row t 0 0 4 == [false, false, false, true] &&
      t.reg 15 == 0) = true ∧
    runs 0xD015 ((regs [(0, 126), (1, 62)]).setDisplay State.reset.display.extend) (fun t =>
      row t 62 126 2 == [true, true] && row t 62 0 3 == [true, true, false] && row t 0 126 2 == [true, false] &&
      row t 2 0 2 == [true, true]) = true := by decide

/-- VG9: no rows, no access, VF cleared; VG11: the first address past memory is reported. -/
theorem test_drw_ranges :
    runs 0xD010 ((regs [(15, 1)]).setIndex 0xFFFF) (fun t => t.reg 15 == 0 && t.err == none) = true ∧
    runs 0xD015 ((regs [(15, 1)]).setIndex 0xFFC) (fun t => faulted .addressOutOfRange 0x1000 0x200 t &&
      t.reg 15 == 1) = true := by decide

theorem test_cls :
    runs 0x00E0 (lineDrawn.setReg 15 1) (fun t => row t 0 0 8 == List.replicate 8 false && t.reg 15 == 1 &&
      t.display.mode == .standard && t.notes == [.pcChanged 0x202]) = true := by decide -- VG14

theorem test_hires :
    runs 0x00FF lineDrawn (fun t => t.display.mode == .extended && row t 0 0 8 == List.replicate 8 false &&
      t.notes == [.pcChanged 0x202]) = true ∧
    runs 0x00FF (State.reset.setDisplay (State.reset.display.extend.draw 5 5 [0x80#8]).1) (fun t =>
      t.display.pixel 5 5) = true := by decide -- VG15, VG16

/-! ## Timers (2.7) -/

theorem test_ldDelay : runs 0xF115 (regs [(1, 0x3C)]) (fun t => t.dt == 0x3C && t.st == 0) = true := by decide -- VT1

theorem test_ldSound : runs 0xF118 (regs [(1, 0x05)]) (fun t => t.st == 0x05 && t.dt == 0) = true := by decide -- VT2

theorem test_ldFromDelay :
    runs 0xF007 (State.reset.setDt 0x2A) (fun t => t.reg 0 == 0x2A && t.dt == 0x2A) = true := by decide -- VT3

/-- VT4, VT6, VT11, through the schedule. -/
theorem test_tick :
    after (step ((State.reset.setDt 3).setAgenda [.tick])) (fun t => t.dt == 2 && t.pc == 0x200 &&
      t.notes == [.delayTimerChanged 2]) = true ∧
    after (step ((State.reset.setSt 1).setAgenda [.tick])) (fun t => t.st == 0 &&
      t.notes == [.playSound, .soundTimerChanged 0]) = true ∧
    after (step (((State.reset.setDt 5).setCtrl .stopped).setAgenda [.tick])) (fun t => t.dt == 5) = true := by
  decide

/-! ## Keypad (2.8) -/

theorem test_skp :
    runs 0xE19E ((regs [(1, 0x15)]).setKey 5 true) (fun t => t.pc == 0x204) = true ∧
    runs 0xE19E (regs [(1, 4)]) (fun t => t.pc == 0x202) = true := by decide -- VK5, VK2

theorem test_sknp :
    runs 0xE1A1 (regs [(1, 4)]) (fun t => t.pc == 0x204) = true ∧
    runs 0xE1A1 ((regs [(1, 4)]).setKey 4 true) (fun t => t.pc == 0x202) = true := by decide -- VK3, VK4

theorem test_ldKey_parks :
    runs 0xF20A State.reset (fun t => t.wait == .waiting 2 && t.pc == 0x200 && t.notes == []) = true := by
  decide -- VK6

/-- VK8, VK10, VK12: the transition latches, a key already down does not, the first one wins; VK9: the delivery. -/
theorem test_ldKey_latches :
    after (request (.keyDown 7) (State.reset.setWait (.waiting 2))) (fun t => t.wait == .keyLatched 2 7 && t.key 7) =
      true ∧
    after (request (.keyDown 7) ((State.reset.setWait (.waiting 2)).setKey 7 true)) (fun t =>
      t.wait == .waiting 2) = true ∧
    after (request (.keyDown 9) (State.reset.setWait (.keyLatched 2 7))) (fun t => t.wait == .keyLatched 2 7 &&
      t.key 9) = true ∧
    after (step (State.reset.setWait (.keyLatched 2 7))) (fun t => t.reg 2 == 7 && t.pc == 0x202 &&
      t.wait == .notWaiting) = true := by decide

/-! ## Faults, control state, requests (2.9) -/

/-- VX1, VX3, VX4. -/
theorem test_faults :
    after (step State.reset) (fun t => faulted .unsupportedOpcode 0 0x200 t &&
      decide (t.notes = [.error { kind := .unsupportedOpcode, info := 0, pc := some 0x200 }, .stopped])) = true ∧
    after (step (State.reset.setPc 0x1001)) (faulted .misalignedPC 0x1001 0x1001) = true ∧
    after (step (State.reset.setPc 0x1000)) (faulted .addressOutOfRange 0x1000 0x1000) = true := by decide

/-- R202: the whole word is reported. -/
theorem test_unsupported : runs 0x5AB1 State.reset (faulted .unsupportedOpcode 0x5AB1 0x200) = true := by decide -- P9

/-- VX5 to VX9, VX11, VX12. -/
theorem test_controller :
    after (request (.pause true) State.reset) (fun t => t.ctrl == .paused && t.notes == [.changedToPaused]) = true ∧
    after (request (.pause true) (State.reset.setCtrl .paused)) (fun t => t == State.reset.setCtrl .paused) = true ∧
    after (request (.pause false) (State.reset.setCtrl .paused)) (fun t => t.ctrl == .running) = true ∧
    after (request .singleStep (poke (State.reset.setCtrl .paused) 0x200 [0x6A, 0x2F])) (fun t =>
      t.reg 10 == 0x2F && t.pc == 0x202 && t.ctrl == .paused) = true ∧
    after (request .singleStep (poke State.reset 0x200 [0x6A, 0x2F])) (fun t => t.reg 10 == 0) = true ∧
    after (request .stop State.reset) (fun t => t.ctrl == .stopped && t.err == none && t.notes == [.stopped]) =
      true := by decide

/-- VX13, and VX15 on the recorded length. -/
theorem test_reset_request :
    after (request (.reset [0x12, 0x00]) (State.reset.raise .stackUnderflow 0x200)) (fun t =>
      t.mem.readBytes 0x1FF 4 == [0, 0x12, 0, 0] && t.err == none && t.ctrl == .running && t.pc == 0x200) = true ∧
    ∀ image : List Byte, image.length = 3585 →
      (loadProgram image State.reset).err = some { kind := .programTooLarge, info := 3585, pc := none } := by
  refine ⟨by decide +kernel, fun image h => ?_⟩
  simp [loadProgram, Config.progMax, h]

/-- R303: the font reads back; an address past it and below the program reads 0. -/
theorem test_font :
    State.reset.mem.readBytes 75 6 = [0xF0, 0x80, 0xF0, 0x80, 0x80, 0x00] ∧
    State.reset.mem.readBytes 5 5 = [0x20, 0x60, 0x20, 0x20, 0x70] := by decide

/-! ## Disassembler (2.10) -/

theorem test_listing_texts :
    (disassemble [0x60, 0x07, 0xF2, 0x33, 0xD0, 0x15, 0x81, 0x26, 0x5A, 0xB1]).map recordText =
      ["0x200: LD V0, 0x07", "0x202: LD B, V2", "0x204: DRW V0, V1, 0x5", "0x206: SHR V1",
        "0x208: UNSUPPORTED 0x5AB1"] := by decide -- VZ6, VZ5

theorem test_listing_odd :
    disassemble [0x00] = [] ∧ (disassemble [0x00, 0xE0, 0x12]).map recordText = ["0x200: CLS"] := by
  decide -- VZ3, VZ4

/-! ## Witnesses: inputs that meet the hypotheses of a statement, clause by clause, at the ends of their ranges -/

theorem witness_wellFormed :
    Instr.WellFormed .cls ∧ Instr.WellFormed (.drw 15 15 15) ∧ Instr.WellFormed (.unsupported 0xFFFF) := by decide

theorem witness_opcodeMap_rows : opcodeMap[0]? = some (0xFFFF, 0x00E0) ∧ opcodeMap[34]? = some (0xF0FF, 0xF065) := by
  decide

/-- Sums 255 and 256; `x` other than VF and VF. -/
theorem witness_carry :
    (¬ 256 ≤ ((regs [(0, 255)]).reg 0).toNat + ((regs [(0, 255)]).reg 1).toNat) ∧
    256 ≤ ((regs [(0, 255), (1, 1)]).reg 0).toNat + ((regs [(0, 255), (1, 1)]).reg 1).toNat ∧
    (0 : Reg) ≠ 15 ∧ (15 : Reg) = 15 := by decide

/-- Equal operands, and one less than the subtrahend. -/
theorem witness_borrow :
    ((regs [(0, 7), (1, 7)]).reg 1).toNat ≤ ((regs [(0, 7), (1, 7)]).reg 0).toNat ∧
    ¬ ((regs [(0, 6), (1, 7)]).reg 1).toNat ≤ ((regs [(0, 6), (1, 7)]).reg 0).toNat := by decide

theorem witness_shifts :
    ((regs [(0, 1)]).reg 0).toNat % 2 = 1 ∧ ¬ ((regs [(0, 2)]).reg 0).toNat % 2 = 1 ∧
    128 ≤ ((regs [(0, 128)]).reg 0).toNat ∧ ¬ 128 ≤ ((regs [(0, 127)]).reg 0).toNat := by decide

theorem witness_call : (stacked 15).stack.length < 16 ∧ (stacked 16).stack.length = 16 := by decide

theorem witness_ret : (stacked 1).stack = [] ++ [0x0202#16] ∧ State.reset.stack = [] := by decide

theorem witness_skips :
    (regs [(0, 7)]).reg 0 = 7 ∧ (regs [(0, 7)]).reg 0 ≠ 8 ∧
    (regs [(0, 7), (1, 7)]).reg 0 = (regs [(0, 7), (1, 7)]).reg 1 ∧
    (regs [(0, 7)]).reg 0 ≠ (regs [(0, 7)]).reg 1 ∧ (1 : Nibble) ≠ 0 ∧ (15 : Nibble) ≠ 0 := by decide

theorem witness_nestedCalls :
    [(0x300 : Addr12)] ≠ [] ∧ [(0x300 : Addr12)].length ≤ 16 ∧ State.reset.stack = [] ∧
    (List.replicate 16 (0x300 : Addr12)) ≠ [] ∧ (List.replicate 16 (0x300 : Addr12)).length = 16 := by decide

theorem witness_bcd :
    (State.reset.setIndex 0xFFD).index.toNat ≤ 0xFFD ∧ 0xFFD < (State.reset.setIndex 0xFFE).index.toNat := by decide

/-- `x = 0` and `x = 15` at the last index that fits and the first that does not. -/
theorem witness_dump_load :
    (State.reset.setIndex 0xFFF).index.toNat + (0 : Reg).val ≤ 0xFFF ∧
    0xFFF < (State.reset.setIndex 0x1000).index.toNat + (0 : Reg).val ∧
    (State.reset.setIndex 0xFF0).index.toNat + (15 : Reg).val ≤ 0xFFF ∧
    0xFFF < (State.reset.setIndex 0xFF1).index.toNat + (15 : Reg).val ∧ (15 : Reg) ≤ 15 := by decide

theorem witness_wholeRange :
    (1 ≤ bytesTouched (.ldBcd 0) ∧ 0xFFF < (State.reset.setIndex 0xFFE).index.toNat + bytesTouched (.ldBcd 0) - 1) ∧
    (bytesTouched (.drw 0 0 0) = 0 ∧ State.reset.err = none) ∧
    ((State.reset.setIndex 0xFFD).index.toNat + bytesTouched (.ldBcd 0) - 1 ≤ 0xFFF) := by decide

/-- V14 and V15 stored at 0xFFE and 0xFFF. -/
theorem witness_fetchSeesStores :
    (State.reset.setIndex 0xFF0).index.toNat + (15 : Reg).val ≤ 0xFFF ∧ (15 : Reg) ≤ 15 ∧
    (15 : Reg).val = (14 : Reg).val + 1 ∧
    (0x0FFE#16).toNat = (State.reset.setIndex 0xFF0).index.toNat + (14 : Reg).val ∧ (0x0FFE#16).toNat % 2 = 0 := by
  decide

theorem witness_modes :
    State.reset.display.mode = .standard ∧ State.reset.display.extend.mode = .extended ∧
    31 < State.reset.display.height ∧ 63 < State.reset.display.width := by decide

/-- No rows; the last range that fits; the first that does not. -/
theorem witness_draw_ranges :
    (0#4).toNat = 0 ∧ (State.reset.setIndex 0xFFB).index.toNat + (5#4).toNat - 1 ≤ 0xFFF ∧
    1 ≤ (1#4).toNat ∧ 0xFFF < (State.reset.setIndex 0x1000).index.toNat + (1#4).toNat - 1 := by decide

/-- One row 0xFF at the origin covers (0, 0) to (0, 7) and not (0, 8); (0, 0) is set in `lineDrawn`, unset at reset.
-/
theorem witness_draw_covered :
    Covered lineDrawn 0 1 1 0 7 ∧ ¬ Covered lineDrawn 0 1 1 0 8 ∧ lineDrawn.display.pixel 0 7 = true ∧
    Covered State.reset 0 1 1 0 0 ∧ State.reset.display.pixel 0 0 = false := by
  refine ⟨⟨0, by decide, 7, by decide, by decide⟩, ?_, by decide, ⟨0, by decide, 0, by decide, by decide⟩, by decide⟩
  rintro ⟨i, hi, k, hk, -, -, hc⟩
  have e1 : (lineDrawn.reg 0).toNat = 0 := by decide
  have e2 : lineDrawn.display.width = 64 := by decide
  rw [e1, e2] at hc
  omega

/-- The clear display; a collision-free draw there: nothing is set. -/
theorem witness_clear : setPixels State.reset.display = ∅ ∧ ¬ ∃ r c, State.reset.display.pixel r c = true ∧
    Covered State.reset 0 1 1 r c := by
  have none : ∀ r c, State.reset.display.pixel r c = false := by
    intro r c
    simp only [State.reset, Display.pixel]
    split
    · simp [Plane.pixel]
    · rfl
  constructor
  · ext q
    simp [setPixels, none]
  · rintro ⟨r, c, hp, -⟩
    simp [none] at hp

/-- Coordinates 70, 40 and 6, 8 are equal modulo 64, 32 (VG4). -/
theorem witness_wrapped_coordinates :
    let s := regs [(0, 70), (1, 40), (2, 6), (3, 8)]
    (s.reg 2).toNat = (s.reg 0).toNat % s.display.width ∧ (s.reg 3).toNat = (s.reg 1).toNat % s.display.height := by
  decide

/-- The first draw leaves the coordinate registers as they were, so the second may name them again. -/
theorem witness_draw_twice :
    after (exec (.drw 0 1 1) lineDrawn) (fun t => t.reg 0 == lineDrawn.reg 0 && t.reg 1 == lineDrawn.reg 1) = true := by
  decide

theorem witness_ticks :
    State.reset.ctrl ≠ .stopped ∧ (State.reset.setCtrl .paused).ctrl ≠ .stopped ∧
    (State.reset.setCtrl .stopped).ctrl = .stopped := by decide

theorem witness_keySkips :
    (∀ k : Key, k.val = ((regs [(1, 0x15)]).reg 1).toNat % 16 → ((regs [(1, 0x15)]).setKey 5 true).key k = true) ∧
    (∀ k : Key, k.val = ((regs [(1, 0x15)]).reg 1).toNat % 16 → (regs [(1, 0x15)]).key k = false) := by decide

theorem witness_waitForKey :
    State.reset.wait = .notWaiting ∧ (State.reset.setWait (.waiting 15)).wait = .waiting 15 ∧
    (State.reset.setWait (.keyLatched 15 0)).wait = .keyLatched 15 0 ∧
    (State.reset.setWait (.waiting 15)).key 15 = false ∧
    ((State.reset.setWait (.waiting 15)).setKey 15 true).key 15 = true := by decide

/-- The lowest odd address, the lowest even one past the last word, both with nothing waited for. -/
theorem witness_fetchFaults :
    State.reset.wait = .notWaiting ∧ (State.reset.setPc 0x0001).pc.toNat % 2 = 1 ∧
    (State.reset.setPc 0x1000).pc.toNat % 2 = 0 ∧ 0xFFE < (State.reset.setPc 0x1000).pc.toNat := by decide

/-- A step that records a fault: at reset the word at `PC` is 0x0000 (P9). -/
theorem witness_faultingStep :
    ∃ t, instructionStep State.reset = .next t ∧ State.reset.err = none ∧ t.err ≠ none :=
  ⟨State.reset.raise .unsupportedOpcode 0, rfl, rfl, by decide⟩

/-- Reset with CLS at the last word of memory and `PC` there. -/
def atLastWord : State := (poke State.reset 0xFFE [0x00, 0xE0]).setPc 0xFFE

/-- The three ways into a decoded instruction, each state with all its hypotheses together. -/
theorem witness_stepRuns :
    (∀ s ∈ [atLastWord, atLastWord.setAgenda [.instruction, .tick],
        (atLastWord.setCtrl .paused).setAgenda [.host .singleStep]],
      s.wait = .notWaiting ∧ s.pc.toNat % 2 = 0 ∧ s.pc.toNat ≤ 0xFFE ∧
        s.mem.read s.pc.toNat = 0x00 ∧ s.mem.read (s.pc.toNat + 1) = 0xE0) ∧
    decodeBytes [0x00, 0xE0] = .ok (.cls, []) ∧
    (atLastWord.ctrl = .running ∧ atLastWord.agenda = []) ∧
    ((atLastWord.setAgenda [.instruction, .tick]).ctrl = .running ∧
      (atLastWord.setAgenda [.instruction, .tick]).agenda = .instruction :: [.tick]) ∧
    ((atLastWord.setCtrl .paused).setAgenda [.host .singleStep]).ctrl = .paused ∧
    ((atLastWord.setCtrl .paused).setAgenda [.host .singleStep]).agenda = .host .singleStep :: [] :=
  ⟨by decide, rfl, by decide, by decide, by decide, by decide⟩

/-- The other agents and the clock in `Paused`. -/
theorem witness_agents :
    ((State.reset.setCtrl .paused).ctrl = .paused ∧ (State.reset.setCtrl .paused).agenda = []) ∧
    (((State.reset.setCtrl .paused).setAgenda [.instruction]).ctrl = .paused ∧
      ((State.reset.setCtrl .paused).setAgenda [.instruction]).agenda = .instruction :: []) ∧
    (State.reset.setAgenda [.tick, .instruction]).agenda = .tick :: [.instruction] ∧
    (State.reset.setAgenda [.host (.keyDown 15)]).agenda = .host (.keyDown 15) :: [] := by decide

/-- R241, R248: in `Paused` an instruction step at the head of the schedule runs nothing; a request there is done. -/
theorem test_step_agents :
    after (step ((atLastWord.setCtrl .paused).setAgenda [.instruction])) (fun t =>
      t == atLastWord.setCtrl .paused) = true ∧
    after (step (State.reset.setAgenda [.host (.keyDown 15), .tick])) (fun t =>
      t.key 15 && t.agenda == [.tick]) = true := by decide

/-- A state that meets the invariant, past the last word, and a step from it. -/
theorem witness_invariant :
    (State.reset.setPc 0x1000).Inv ∧ ∃ t, step (State.reset.setPc 0x1000) = .next t :=
  ⟨{ memory := reset_memory_wf
     depth := by decide
     returns := fun _ h => nomatch h
     pcBound := by decide
     faultStops := by decide
     parked := True.intro },
    (State.reset.setPc 0x1000).raise .addressOutOfRange 0x1000, rfl⟩

/-- The shortest image, the longest that fits, and the shortest that does not. -/
theorem witness_images :
    ([] : List Byte).length ≤ 3584 ∧ (List.replicate 3584 0x00#8).length ≤ 3584 ∧
    3584 < (List.replicate 3585 0x00#8).length := by
  rw [List.length_replicate, List.length_replicate]
  decide

theorem witness_controller :
    State.reset.ctrl = .running ∧ (State.reset.setCtrl .paused).ctrl = .paused ∧ State.reset.ctrl ≠ .stopped := by
  decide

theorem witness_keyRequests :
    State.reset.ctrl ≠ .stopped ∧ State.reset.key 0 = false ∧ (State.reset.setKey 0 true).key 0 = true ∧
    (State.reset.setWait (.waiting 1)).wait = .waiting 1 ∧ ∀ x, State.reset.wait ≠ .waiting x := by decide

theorem witness_stopped :
    (State.reset.setCtrl .stopped).ctrl = .stopped ∧ NoResetNext (State.reset.setCtrl .stopped) ∧
    ∃ t, step (State.reset.setCtrl .stopped) = .next t :=
  ⟨rfl, (fun _ h => nomatch h), _, rfl⟩

theorem witness_extended :
    (State.reset.setDisplay State.reset.display.extend).display.mode = .extended ∧
    NoResetNext (State.reset.setDisplay State.reset.display.extend) ∧
    ∃ t, step (State.reset.setDisplay State.reset.display.extend) = .next t :=
  ⟨rfl, (fun _ h => nomatch h), _, rfl⟩

theorem witness_recordedFault :
    ((State.reset.raise .stackUnderflow 0x200).err ≠ none →
      (State.reset.raise .stackUnderflow 0x200).ctrl = .stopped) ∧
    (∃ r, (State.reset.raise .stackUnderflow 0x200).err = some r) ∧
    NoResetNext (State.reset.raise .stackUnderflow 0x200) ∧
    ∃ t, step (State.reset.raise .stackUnderflow 0x200) = .next t :=
  ⟨fun _ => rfl, ⟨_, rfl⟩, (fun _ h => nomatch h), _, rfl⟩

theorem witness_hostParts :
    Request.stop ≠ .singleStep ∧ (∀ image, Request.stop ≠ .reset image) ∧
    ∃ t, request .stop State.reset = .next t :=
  ⟨by decide, fun _ => nofun, _, rfl⟩

theorem witness_registersWritten :
    State.reset.wait = .notWaiting ∧ (∃ t, exec (.ldImm 0 7) State.reset = .next t) ∧
    (15 : Reg) ∉ registersWritten (.ldImm 0 7) :=
  ⟨rfl, ⟨_, rfl⟩, by decide⟩

/-- A store that changes a byte. -/
theorem witness_memoryWritten :
    after (exec (.dump 0) ((regs [(0, 1)]).setIndex 0xFFF)) (fun t => t.mem.read 0xFFF != State.reset.mem.read 0xFFF) =
      true := by decide

theorem witness_specialState :
    after (exec (.ldDelay 0) (regs [(0, 1)])) (fun t => t.dt != 0) = true ∧
    after (exec (.ldSound 0) (regs [(0, 1)])) (fun t => t.st != 0) = true ∧
    after (exec (.ldIndex 1) State.reset) (fun t => t.index != 0) = true ∧
    after (exec (.call 0x300) State.reset) (fun t => t.stack != []) = true ∧
    after (exec .hires State.reset) (fun t => t.display != State.reset.display) = true := by decide

theorem witness_listing :
    (disassemble [0x00#8, 0xE0#8, 0x12#8])[0]? = some { address := 0x200, instr := .cls } := by decide

end Sys2Proof.Tests
end

section
/-! SUPPORT. What an instruction can do, said once: the inversion lemma of `exec`, from which the statements over all
instructions are derived. -/

namespace Sys2Proof.Machine

open Sys2Proof.Claims

/-- The outcomes of an instruction, by the shared operation that produces them; each names the instructions it belongs
to as far as the rules of spec/10_state.md R21 to R31 tell them apart. -/
inductive Effect (s : State) : Instr → State → Prop
  /-- A fault is taken (R239). -/
  | fault (i : Instr) (kind : FaultKind) (info : Nat) : Effect s i (s.raise kind info)
  /-- One register is written, no flag. -/
  | reg (i : Instr) (x : Reg) (b : Byte) (hi : registersWritten i = [x]) (told : ∀ u, otherReports i u = []) :
      Effect s i (s.loadReg x b)
  /-- A drawn byte is written to a register. -/
  | random (x : Reg) (kk : Byte) :
      Effect s (.rnd x kk) (s.countDraw.loadReg x (Config.drawByte s.draws &&& kk))
  /-- A register and then VF as its flag are written. -/
  | regFlag (i : Instr) (x : Reg) (result flag : Byte) (hi : registersWritten i = [x, 15])
      (told : ∀ u, otherReports i u = []) :
      Effect s i (s.loadRegFlag x result flag)
  /-- A skip. -/
  | skip (i : Instr) (taken : Bool) (hi : registersWritten i = []) (told : ∀ u, otherReports i u = []) :
      Effect s i (s.skipIf taken)
  /-- A jump; the highest target is that of JP V0,nnn (R132). -/
  | jump (i : Instr) (target : Word) (ht : target.toNat ≤ 0x10FE) (hi : registersWritten i = [])
      (told : ∀ u, otherReports i u = []) : Effect s i (s.jump target)
  /-- A call with room on the stack. -/
  | call (nnn : Addr12) (room : s.stack.length < Config.stackDepth) :
      Effect s (.call nnn) ((s.setStack (s.stack ++ [s.nextPc])).jump (zextAddr nnn))
  /-- A return to the last entry of the stack. -/
  | ret (target : Word) (top : s.stack.getLast? = some target) :
      Effect s .ret ((s.setStack s.stack.dropLast).jump target)
  /-- `I` is written. -/
  | index (i : Instr) (a : Word)
      (hi : (∃ nnn, i = .ldIndex nnn) ∨ (∃ x, i = .addIndex x) ∨ ∃ x, i = .ldFont x) :
      Effect s i (s.loadIndex a)
  /-- Bytes are stored at `I`, all of them inside memory (R55). -/
  | store (i : Instr) (bs : List Byte) (hi : ∃ x, i = .ldBcd x ∨ i = .dump x) (len : bs.length = bytesTouched i)
      (range : s.index.toNat + bs.length ≤ Config.memSize) : Effect s i (s.store bs)
  /-- V0 to Vx are read from memory. -/
  | load (x : Reg) :
      Effect s (.load x)
        ((s.setRegsFrom 0 (s.mem.readBytes s.index.toNat (x.val + 1))).complete s.nextPc (regsUpTo x) [])
  /-- `DT` is written. -/
  | delay (x : Reg) :
      Effect s (.ldDelay x) ((s.setDt (s.reg x)).complete s.nextPc [] [.delayTimerChanged (s.reg x)])
  /-- `ST` is written. -/
  | sound (x : Reg) :
      Effect s (.ldSound x) ((s.setSt (s.reg x)).complete s.nextPc [] [.soundTimerChanged (s.reg x)])
  /-- The display is cleared. -/
  | clear : Effect s .cls ((s.setDisplay s.display.clear).complete s.nextPc [] [])
  /-- The mode is switched. -/
  | extend : Effect s .hires ((s.setDisplay s.display.extend).complete s.nextPc [] [])
  /-- A sprite is drawn. -/
  | draw (x y : Reg) (n : Nibble) :
      Effect s (.drw x y n)
        (s.drawn (s.display.draw (s.reg y).toNat (s.reg x).toNat (s.mem.readBytes s.index.toNat n.toNat)))
  /-- LD Vx,K parks. -/
  | park (x : Reg) (free : s.wait = .notWaiting) : Effect s (.ldKey x) (s.setWait (.waiting x))
  /-- LD Vx,K goes on waiting or delivers the key. -/
  | resume (x : Reg) (busy : s.wait ≠ .notWaiting) : Effect s (.ldKey x) s.resumeWait

/-- The highest target of JP V0,nnn: `0xFFF + 0xFF`. -/
theorem offset_target_le (nnn : Addr12) (b : Byte) : (zextAddr nnn + zextByte b).toNat ≤ 0x10FE := by
  rw [BitVec.toNat_add, zextAddr_toNat, zextByte_toNat]
  omega

/-- Everything an instruction can do. -/
theorem exec_effect {i : Instr} {s t : State} (h : exec i s = .next t) : Effect s i t := by
  cases i with
  | ldImm x _ | addImm x _ | ldReg x _ | orReg x _ | andReg x _ | xorReg x _ | ldFromDelay x =>
    cases h; exact .reg _ x _ rfl fun _ => rfl
  | addReg x _ | subReg x _ | subnReg x _ | shr x _ | shl x _ =>
    cases h; exact .regFlag _ x _ _ rfl fun _ => rfl
  | seImm | sneImm | seReg | sneReg | skp | sknp => cases h; exact .skip _ _ rfl fun _ => rfl
  | ldIndex nnn => cases h; exact .index _ _ (.inl ⟨nnn, rfl⟩)
  | addIndex x => cases h; exact .index _ _ (.inr (.inl ⟨x, rfl⟩))
  | ldFont x => cases h; exact .index _ _ (.inr (.inr ⟨x, rfl⟩))
  | jp nnn => cases h; exact .jump _ _ (by rw [zextAddr_toNat]; omega) rfl fun _ => rfl
  | jpV0 nnn => cases h; exact .jump _ _ (offset_target_le nnn _) rfl fun _ => rfl
  | rnd x kk => cases h; exact .random x kk
  | ldDelay x => cases h; exact .delay x
  | ldSound x => cases h; exact .sound x
  | cls => cases h; exact .clear
  | hires => cases h; exact .extend
  | unsupported w => cases h; exact .fault _ _ _
  | call nnn =>
    simp only [exec, execCall] at h
    split at h
    · cases h; exact .fault _ _ _
    · cases h; exact .call nnn (by omega)
  | ret =>
    simp only [exec, execRet] at h
    split at h
    · cases h; exact .fault _ _ _
    · cases h; exact .ret _ ‹_›
  | ldKey x =>
    simp only [exec, execLdKey] at h
    split at h
    · cases h; exact .park x ‹_›
    · cases h; exact .resume x (by simp_all)
    · cases h; exact .resume x (by simp_all)
  | ldBcd x =>
    obtain ⟨range, rfl⟩ | ⟨-, -, rfl⟩ := withRange_next h
    · exact .store _ _ ⟨x, .inl rfl⟩ rfl (by simpa [Config.memSize] using range)
    · exact .fault _ _ _
  | dump x =>
    obtain ⟨range, rfl⟩ | ⟨-, -, rfl⟩ := withRange_next h
    · exact .store _ _ ⟨x, .inr rfl⟩ (length_dumpBytes s x) (by simpa [Config.memSize] using range)
    · exact .fault _ _ _
  | load x =>
    obtain ⟨-, rfl⟩ | ⟨-, -, rfl⟩ := withRange_next h
    · exact .load x
    · exact .fault _ _ _
  | drw x y n =>
    obtain ⟨-, rfl⟩ | ⟨-, -, rfl⟩ := withRange_next h
    · exact .draw x y n
    · exact .fault _ _ _

end Sys2Proof.Machine
end

section
/-! SUPPORT. What a step of an agent, and so a step of the machine, can do, said once. -/

namespace Sys2Proof.Machine

open Sys2Proof.Claims

/-- The outcomes of a step of an agent. Only a reset request does anything in `Stopped` (R240, R246, R271). -/
inductive AgentEffect (s : State) : AgentStep → State → Prop
  /-- A clock that is not enabled, or a request that is not valid (log 2). -/
  | idle (a : AgentStep) : AgentEffect s a s
  /-- The instruction step, of the instruction clock or on a single-step request. -/
  | instruction (a : AgentStep) (t : State) (live : s.ctrl ≠ .stopped) (h : instructionStep s = .next t) :
      AgentEffect s a t
  /-- A tick. -/
  | tick (live : s.ctrl ≠ .stopped) : AgentEffect s .tick s.tickDelay.tickSound
  /-- A reset request. -/
  | reset (image : List Byte) : AgentEffect s (.host (.reset image)) (newRun image s)
  /-- A pause request. -/
  | pause (flag : Bool) (live : s.ctrl ≠ .stopped) : AgentEffect s (.host (.pause flag)) (s.pause flag)
  /-- A stop request. -/
  | stop (live : s.ctrl ≠ .stopped) : AgentEffect s (.host .stop) s.stop
  /-- A set-instruction-delay request. -/
  | setDelay (ms : Nat) (live : s.ctrl ≠ .stopped) :
      AgentEffect s (.host (.setInstructionDelay ms)) (s.setInstrDelay ms)
  /-- A key-down request. -/
  | keyDown (k : Key) (live : s.ctrl ≠ .stopped) : AgentEffect s (.host (.keyDown k)) (s.keyDown k)
  /-- A key-up request. -/
  | keyUp (k : Key) (live : s.ctrl ≠ .stopped) : AgentEffect s (.host (.keyUp k)) (s.keyUp k)
  /-- An enable-extended-screen-mode request. -/
  | extend (live : s.ctrl ≠ .stopped) :
      AgentEffect s (.host .enableExtendedScreenMode) (s.setDisplay s.display.extend)

/-- Everything a step of the instruction clock can do. -/
theorem instructionClock_effect {s t : State} (a : AgentStep) (h : instructionClock s = .next t) :
    AgentEffect s a t := by
  by_cases running : s.ctrl = .running
  · rw [instructionClock_running running] at h
    exact .instruction a t (by simp [running]) h
  · rw [instructionClock_idle running] at h
    cases h
    exact .idle a

/-- Everything a request can do. -/
theorem request_effect {r : Request} {s t : State} (h : request r s = .next t) : AgentEffect s (.host r) t := by
  by_cases stopped : s.ctrl = .stopped
  · rw [request_stopped stopped] at h
    cases h
    cases r with
    | reset image => exact .reset image
    | _ => exact .idle _
  · rw [request_live stopped] at h
    cases r with
    | singleStep =>
      simp only [liveRequest] at h
      split at h
      · exact .instruction _ t stopped h
      · cases h; exact .idle _
      · cases h; exact .idle _
    | reset image => cases h; exact .reset image
    | pause flag => cases h; exact .pause flag stopped
    | stop => cases h; exact .stop stopped
    | setInstructionDelay ms => cases h; exact .setDelay ms stopped
    | keyDown k => cases h; exact .keyDown k stopped
    | keyUp k => cases h; exact .keyUp k stopped
    | enableExtendedScreenMode => cases h; exact .extend stopped

/-- Everything a step of an agent can do. -/
theorem agentStep_effect {a : AgentStep} {s t : State} (h : agentStep a s = .next t) : AgentEffect s a t := by
  cases a with
  | instruction => exact instructionClock_effect _ h
  | tick =>
    cases h
    by_cases stopped : s.ctrl = .stopped
    · rw [tick_stopped stopped]; exact .idle _
    · rw [tick_live stopped]; exact .tick stopped
  | host r => exact request_effect h

/-- The step of the machine is the step of the agent the schedule names, the instruction clock where it names none,
after that entry is taken off (R248; log 2). -/
theorem step_eq_agentStep (s : State) :
    step s = agentStep (s.agenda.headD .instruction) (s.setAgenda s.agenda.tail) := by
  cases h : s.agenda with
  | nil =>
    have same : s.setAgenda [] = s := by rw [← h]; rfl
    rw [step_empty h, List.tail_nil, same]
    rfl
  | cons a rest => exact step_agent h

/-- Everything a step of the machine can do. -/
theorem step_effect {s t : State} (h : step s = .next t) :
    AgentEffect (s.setAgenda s.agenda.tail) (s.agenda.headD .instruction) t :=
  agentStep_effect (step_eq_agentStep s ▸ h)

theorem headD_ne_reset {s : State} (h : NoResetNext s) (image : List Byte) :
    s.agenda.headD .instruction ≠ .host (.reset image) := by
  have head := h image
  cases ha : s.agenda with
  | nil => simp
  | cons a rest => simpa [ha] using head

/-- In `Stopped` only a reset request does anything (R240, R241, R246, R271). -/
theorem AgentEffect.eq_of_stopped {s t : State} {a : AgentStep} (e : AgentEffect s a t) (stopped : s.ctrl = .stopped)
    (other : ∀ image, a ≠ .host (.reset image)) : t = s := by
  cases e with
  | idle => rfl
  | reset image => exact absurd rfl (other image)
  | _ => contradiction

/-- In `Stopped` the machine's step changes nothing but the schedule, until a reset. -/
theorem step_eq_of_stopped {s t : State} (stopped : s.ctrl = .stopped) (noReset : NoResetNext s)
    (h : step s = .next t) : t = s.setAgenda s.agenda.tail :=
  (step_effect h).eq_of_stopped stopped (headD_ne_reset noReset)

end Sys2Proof.Machine
end

section
/-! SUPPORT. Frames of the operations that write several parts or choose what to write, and the display's mode. -/

namespace Sys2Proof.Machine

open Sys2Proof.Claims

/-! ## Registers written from memory -/

section

variable (s : State) (i : Nat) (bs : List Byte)

@[simp] theorem State.setRegsFrom_index : (s.setRegsFrom i bs).index = s.index := by rw [State.setRegsFrom_eq]
@[simp] theorem State.setRegsFrom_pc : (s.setRegsFrom i bs).pc = s.pc := by rw [State.setRegsFrom_eq]
@[simp] theorem State.setRegsFrom_stack : (s.setRegsFrom i bs).stack = s.stack := by rw [State.setRegsFrom_eq]
@[simp] theorem State.setRegsFrom_dt : (s.setRegsFrom i bs).dt = s.dt := by rw [State.setRegsFrom_eq]
@[simp] theorem State.setRegsFrom_st : (s.setRegsFrom i bs).st = s.st := by rw [State.setRegsFrom_eq]
@[simp] theorem State.setRegsFrom_display : (s.setRegsFrom i bs).display = s.display := by rw [State.setRegsFrom_eq]
@[simp] theorem State.setRegsFrom_keys : (s.setRegsFrom i bs).keys = s.keys := by rw [State.setRegsFrom_eq]
@[simp] theorem State.setRegsFrom_wait : (s.setRegsFrom i bs).wait = s.wait := by rw [State.setRegsFrom_eq]
@[simp] theorem State.setRegsFrom_ctrl : (s.setRegsFrom i bs).ctrl = s.ctrl := by rw [State.setRegsFrom_eq]
@[simp] theorem State.setRegsFrom_err : (s.setRegsFrom i bs).err = s.err := by rw [State.setRegsFrom_eq]
@[simp] theorem State.setRegsFrom_mem : (s.setRegsFrom i bs).mem = s.mem := by rw [State.setRegsFrom_eq]
@[simp] theorem State.setRegsFrom_notes : (s.setRegsFrom i bs).notes = s.notes := by rw [State.setRegsFrom_eq]
@[simp] theorem State.setRegsFrom_agenda : (s.setRegsFrom i bs).agenda = s.agenda := by rw [State.setRegsFrom_eq]
@[simp] theorem State.setRegsFrom_draws : (s.setRegsFrom i bs).draws = s.draws := by rw [State.setRegsFrom_eq]
@[simp] theorem State.setRegsFrom_instrDelayMs : (s.setRegsFrom i bs).instrDelayMs = s.instrDelayMs := by
  rw [State.setRegsFrom_eq]
@[simp] theorem State.setRegsFrom_key (k : Key) : (s.setRegsFrom i bs).key k = s.key k := by
  simp only [State.key, State.setRegsFrom_keys]

end

/-! ## The display -/

@[simp] theorem Display.mode_clear (d : Display) : d.clear.mode = d.mode := by cases d <;> rfl

@[simp] theorem Display.mode_extend (d : Display) : d.extend.mode = .extended := by cases d <;> rfl

@[simp] theorem Display.mode_draw (d : Display) (row column : Nat) (sprite : List Byte) :
    (d.draw row column sprite).1.mode = d.mode := by cases d <;> rfl

@[simp] theorem Display.pixel_clear (d : Display) (r c : Nat) : d.clear.pixel r c = false := by
  cases d <;> simp [Display.clear, Display.pixel]

theorem setPixels_clear (d : Display) : setPixels d.clear = ∅ := by
  simp [setPixels]

/-! ## Memory at reset -/

/-- What an unlisted address reads as: the font below 80 and zero above (log 8). -/
theorem Memory.unlisted_eq (a : Nat) : Memory.unlisted a = if a < 80 then fontTable.getD a 0 else 0x00#8 := by
  have length : fontTable.length = 80 := rfl
  simp only [Memory.unlisted, fontBase, Nat.not_lt_zero, if_false, Nat.sub_zero]
  split
  · rfl
  · exact List.getD_eq_default _ _ (by omega)

end Sys2Proof.Machine
end

section
/-! SUPPORT. The extended mode is left by no outcome but a reset's (spec/10_state.md R29,
spec/70_reset_and_hazards.md R310). -/

namespace Sys2Proof.Machine

theorem State.resumeWait_display (s : State) : s.resumeWait.display = s.display := by
  unfold State.resumeWait
  split <;> rfl

theorem State.tick_display (s : State) : s.tickDelay.tickSound.display = s.display := by
  unfold State.tickSound State.tickDelay
  split <;> split <;> rfl

theorem State.pause_display (s : State) (flag : Bool) : (s.pause flag).display = s.display := by
  unfold State.pause
  split <;> rfl

theorem State.keyDown_display (s : State) (k : Key) : (s.keyDown k).display = s.display := by
  unfold State.keyDown
  split
  · rfl
  · split <;> rfl

theorem Effect.keeps_extended {i : Instr} {s t : State} (e : Effect s i t) (extended : s.display.mode = .extended) :
    t.display.mode = .extended := by
  cases e with
  | load => simpa using extended
  | clear => simpa using extended
  | extend => simp
  | draw => simpa [State.drawn] using extended
  | resume => rw [State.resumeWait_display, extended]
  | _ => exact extended

theorem instructionStep_keeps_extended {s t : State} (h : instructionStep s = .next t)
    (extended : s.display.mode = .extended) : t.display.mode = .extended := by
  rcases instructionStep_cases s with
    ⟨x, -, e⟩ | ⟨x, k, -, e⟩ | ⟨-, -, e⟩ | ⟨-, -, -, e⟩ | ⟨-, -, e⟩ <;> rw [e] at h
  · cases h; exact extended
  · cases h; exact extended
  · cases h; exact extended
  · cases h; exact extended
  · exact (exec_effect h).keeps_extended extended

theorem AgentEffect.keeps_extended {s t : State} {a : AgentStep} (e : AgentEffect s a t)
    (other : ∀ image, a ≠ .host (.reset image)) (extended : s.display.mode = .extended) :
    t.display.mode = .extended := by
  cases e with
  | instruction _ _ live h => exact instructionStep_keeps_extended h extended
  | reset image => exact absurd rfl (other image)
  | extend => simp
  | tick => rw [State.tick_display, extended]
  | pause => rw [State.pause_display, extended]
  | keyDown => rw [State.keyDown_display, extended]
  | _ => exact extended

end Sys2Proof.Machine
end

section
/-! SUPPORT. The invariant: what it depends on, the operations that keep it, and that every outcome of an instruction
and of an agent keeps it. -/

namespace Sys2Proof.Machine

/-- The fields the invariant speaks of. -/
def State.guarded (s : State) : Memory × List Word × Word × Option FaultRecord × Ctrl × Wait :=
  (s.mem, s.stack, s.pc, s.err, s.ctrl, s.wait)

theorem State.setRegsFrom_guarded (s : State) (i : Nat) (bs : List Byte) :
    (s.setRegsFrom i bs).guarded = s.guarded := by
  rw [State.setRegsFrom_eq]; rfl

theorem State.tick_guarded (s : State) : s.tickDelay.tickSound.guarded = s.guarded := by
  unfold State.tickSound State.tickDelay
  split <;> split <;> rfl

/-- The invariant depends on the guarded fields only. -/
theorem State.Inv.of_guarded {s t : State} (hs : s.Inv) (same : t.guarded = s.guarded) : t.Inv := by
  simp only [State.guarded, Prod.mk.injEq] at same
  obtain ⟨hmem, hstack, hpc, herr, hctrl, hwait⟩ := same
  refine ⟨hmem ▸ hs.memory, hstack ▸ hs.depth, hstack ▸ hs.returns, hpc ▸ hs.pcBound, ?_, ?_⟩
  · rw [herr, hctrl]; exact hs.faultStops
  · unfold State.ParkedAtItsInstruction
    rw [hwait, hpc, hmem]
    exact hs.parked

/-! ## Operations that keep it -/

theorem parked_of_free {s : State} (free : s.wait = .notWaiting) : s.ParkedAtItsInstruction := by
  simp [State.ParkedAtItsInstruction, free]

/-- A fault recorded, with the stop that goes with it. -/
theorem State.Inv.recordFault {s : State} (hs : s.Inv) (r : FaultRecord) : ((s.setErr r).setCtrl .stopped).Inv :=
  ⟨hs.memory, hs.depth, hs.returns, hs.pcBound, fun _ => rfl, hs.parked⟩

theorem State.Inv.raise {s : State} (hs : s.Inv) (kind : FaultKind) (info : Nat) : (s.raise kind info).Inv :=
  (hs.recordFault _).of_guarded rfl

theorem State.Inv.complete {s : State} (hs : s.Inv) (free : s.wait = .notWaiting) {target : Word}
    (bound : target.toNat ≤ 0x10FE) (regs : List Reg) (others : List Notification) :
    (s.complete target regs others).Inv :=
  ⟨hs.memory, hs.depth, hs.returns, bound, hs.faultStops, parked_of_free free⟩

theorem State.Inv.setStack {s : State} (hs : s.Inv) {k : List Word} (depth : k.length ≤ Config.stackDepth)
    (returns : ∀ a ∈ k, a.toNat % 2 = 0 ∧ a.toNat ≤ 0x1000) : (s.setStack k).Inv :=
  ⟨hs.memory, depth, returns, hs.pcBound, hs.faultStops, hs.parked⟩

theorem State.Inv.setMem {s : State} (hs : s.Inv) (free : s.wait = .notWaiting) {m : Memory} (wf : m.wf) :
    (s.setMem m).Inv :=
  ⟨wf, hs.depth, hs.returns, hs.pcBound, hs.faultStops, parked_of_free free⟩

theorem State.Inv.setWait {s : State} (hs : s.Inv) {w : Wait} (parked : (s.setWait w).ParkedAtItsInstruction) :
    (s.setWait w).Inv :=
  ⟨hs.memory, hs.depth, hs.returns, hs.pcBound, hs.faultStops, parked⟩

theorem State.Inv.setCtrl {s : State} (hs : s.Inv) {c : Ctrl} (stops : s.err ≠ none → c = .stopped) :
    (s.setCtrl c).Inv :=
  ⟨hs.memory, hs.depth, hs.returns, hs.pcBound, stops, hs.parked⟩

theorem State.Inv.stop {s : State} (hs : s.Inv) : s.stop.Inv :=
  (hs.setCtrl fun _ => rfl).of_guarded rfl

/-! ## The targets of completed instructions -/

/-- A step forward from a fetchable address does not wrap. -/
theorem Fetchable.add_toNat {a k : Word} (h : Fetchable a) (small : k.toNat ≤ 4) :
    (a + k).toNat = a.toNat + k.toNat := by
  obtain ⟨-, bound⟩ := h
  exact BitVec.toNat_add_of_lt (by omega)

/-- The address a call at a fetchable address pushes. -/
theorem nextPc_even_le {s : State} (h : Fetchable s.pc) : s.nextPc.toNat % 2 = 0 ∧ s.nextPc.toNat ≤ 0x1000 := by
  have next : s.nextPc.toNat = s.pc.toNat + 2 := h.add_toNat (by decide)
  obtain ⟨even, bound⟩ := h
  omega

theorem nextPc_le {s : State} (h : Fetchable s.pc) : s.nextPc.toNat ≤ 0x10FE := by
  obtain ⟨-, bound⟩ := nextPc_even_le h
  omega

theorem skipPc_le {s : State} (h : Fetchable s.pc) : s.skipPc.toNat ≤ 0x10FE := by
  have skip : s.skipPc.toNat = s.pc.toNat + 4 := h.add_toNat (by decide)
  obtain ⟨-, bound⟩ := h
  omega

/-! ## Completed instructions -/

theorem State.Inv.skipIf {s : State} (hs : s.Inv) (free : s.wait = .notWaiting) (fetchable : Fetchable s.pc)
    (taken : Bool) : (s.skipIf taken).Inv := by
  refine hs.complete free ?_ [] []
  cases taken
  · exact nextPc_le fetchable
  · exact skipPc_le fetchable

/-- An instruction that completes with `next`, after writes `u` to unguarded fields only. -/
theorem State.Inv.completeNext {s : State} (hs : s.Inv) (free : s.wait = .notWaiting) (fetchable : Fetchable s.pc)
    (u : State) (same : u.guarded = s.guarded) (regs : List Reg) (others : List Notification) :
    (u.complete s.nextPc regs others).Inv := by
  have hw : u.wait = s.wait := by simp_all [State.guarded]
  exact (hs.of_guarded same).complete (hw.trans free) (nextPc_le fetchable) regs others

theorem State.Inv.loadReg {s : State} (hs : s.Inv) (free : s.wait = .notWaiting) (fetchable : Fetchable s.pc)
    (x : Reg) (b : Byte) : (s.loadReg x b).Inv :=
  hs.completeNext free fetchable (s.setReg x b) rfl _ _

theorem State.Inv.drawn {s : State} (hs : s.Inv) (free : s.wait = .notWaiting) (fetchable : Fetchable s.pc)
    (q : Display × Bool) : (s.drawn q).Inv :=
  hs.completeNext free fetchable ((s.setDisplay q.1).setReg vf (flagOf q.2)) rfl _ _

/-- Every outcome of the instruction at a fetchable `PC`, nothing waited for, keeps the invariant. -/
theorem Effect.keeps_inv {i : Instr} {s t : State} (e : Effect s i t) (hs : s.Inv) (free : s.wait = .notWaiting)
    (fetchable : Fetchable s.pc) (fetched : decode (s.mem.word s.pc.toNat) = i) : t.Inv := by
  have next := hs.completeNext free fetchable
  cases e with
  | fault _ kind info => exact hs.raise kind info
  | reg _ x b => exact hs.loadReg free fetchable x b
  | random x kk => exact next (s.countDraw.setReg x _) rfl _ _
  | regFlag _ x result flag => exact next (s.setResultFlag x result flag) rfl _ _
  | index _ a => exact next (s.setIndex a) rfl _ _
  | delay x => exact next (s.setDt (s.reg x)) rfl _ _
  | sound x => exact next (s.setSt (s.reg x)) rfl _ _
  | clear => exact next (s.setDisplay s.display.clear) rfl _ _
  | extend => exact next (s.setDisplay s.display.extend) rfl _ _
  | draw => exact hs.drawn free fetchable _
  | load x => exact next (s.setRegsFrom 0 _) (s.setRegsFrom_guarded 0 _) _ _
  | skip _ taken => exact hs.skipIf free fetchable taken
  | jump _ target ht hi told => exact hs.complete free ht _ _
  | call nnn room =>
    have pushed : (s.setStack (s.stack ++ [s.nextPc])).Inv := by
      refine hs.setStack (by simpa using room) fun a ha => ?_
      rcases List.mem_append.mp ha with old | new
      · exact hs.returns a old
      · rw [List.mem_singleton.mp new]
        exact nextPc_even_le fetchable
    exact pushed.complete free (by rw [zextAddr_toNat]; omega) _ _
  | ret target top =>
    have popped : (s.setStack s.stack.dropLast).Inv :=
      hs.setStack (by have := hs.depth; simp; omega) fun a ha => hs.returns a (List.mem_of_mem_dropLast ha)
    obtain ⟨-, bound⟩ := hs.returns target (List.mem_of_getLast? top)
    exact popped.complete free (by omega) _ _
  | store _ bs hi len range =>
    exact (hs.setMem free (Memory.writeBytes_wf hs.memory _ bs range)).complete free (nextPc_le fetchable) _ _
  | park x => exact hs.setWait ⟨fetchable, fetched⟩
  | resume x busy => exact absurd free busy

/-- The delivery of a latched key: the latch stands at a fetchable `PC`. -/
theorem State.Inv.deliver {s : State} (hs : s.Inv) {x : Reg} {k : Key} (latched : s.wait = .keyLatched x k) (b : Byte) :
    ((s.setWait .notWaiting).loadReg x b).Inv := by
  have parked := hs.parked
  rw [State.ParkedAtItsInstruction, latched] at parked
  obtain ⟨fetchable, -⟩ := parked
  exact (hs.setWait (parked_of_free rfl)).loadReg rfl fetchable x b

theorem instructionStep_keeps_inv {s t : State} (h : instructionStep s = .next t) (hs : s.Inv) : t.Inv := by
  rcases instructionStep_cases s with
    ⟨x, -, e⟩ | ⟨x, k, latched, e⟩ | ⟨-, -, e⟩ | ⟨-, -, -, e⟩ | ⟨free, fetchable, e⟩ <;> rw [e] at h
  · cases h; exact hs
  · cases h; exact hs.deliver latched _
  · cases h; exact hs.raise _ _
  · cases h; exact hs.raise _ _
  · exact (exec_effect h).keeps_inv hs free fetchable rfl

/-! ## Agents -/

theorem State.Inv.pause {s : State} (hs : s.Inv) (flag : Bool) : (s.pause flag).Inv := by
  have unrecorded (live : s.ctrl ≠ .stopped) (c : Ctrl) : s.err ≠ none → c = .stopped :=
    fun recorded => absurd (hs.faultStops recorded) live
  unfold State.pause
  split
  · rename_i running
    exact (hs.setCtrl (unrecorded (by simp [running]) .paused)).of_guarded rfl
  · rename_i paused
    exact (hs.setCtrl (unrecorded (by simp [paused]) .running)).of_guarded rfl
  · exact hs
  · exact hs
  · exact hs

theorem State.Inv.keyDown {s : State} (hs : s.Inv) (k : Key) : (s.keyDown k).Inv := by
  have parked := hs.parked
  unfold State.keyDown
  split
  · exact hs
  · split
    · rename_i x waiting
      rw [State.ParkedAtItsInstruction, waiting] at parked
      exact State.Inv.of_guarded (s := s.setWait (.keyLatched x k)) (hs.setWait parked) rfl
    · exact hs.of_guarded rfl
    · exact hs.of_guarded rfl

theorem State.reset_inv : State.reset.Inv :=
  ⟨reset_memory_wf, by decide, nofun, by decide, nofun, trivial⟩

theorem loadFontSet_inv {s : State} (hs : s.Inv) (free : s.wait = .notWaiting) : (loadFontSet s).Inv :=
  hs.setMem free (Memory.writeBytes_wf hs.memory fontBase fontTable (by decide))

theorem loadProgram_inv {s : State} (hs : s.Inv) (free : s.wait = .notWaiting) (image : List Byte) :
    (loadProgram image s).Inv := by
  unfold loadProgram
  split
  · exact (hs.recordFault _).of_guarded rfl
  · rename_i fits
    refine hs.setMem free (Memory.writeBytes_wf hs.memory _ image ?_)
    simp only [Config.progMax, Config.progBase, Config.memSize] at *
    omega

/-- A new run starts from reset, so the old state plays no part. -/
theorem newRun_inv (image : List Byte) (s : State) : (newRun image s).Inv := by
  refine loadProgram_inv (loadFontSet_inv ?_ ?_) ?_ image
  · exact State.reset_inv.of_guarded rfl
  · rfl
  · rfl

theorem AgentEffect.keeps_inv {s t : State} {a : AgentStep} (e : AgentEffect s a t) (hs : s.Inv) : t.Inv := by
  cases e with
  | instruction _ _ live h => exact instructionStep_keeps_inv h hs
  | reset image => exact newRun_inv image s
  | tick => exact hs.of_guarded s.tick_guarded
  | pause flag => exact hs.pause flag
  | stop => exact hs.stop
  | keyDown k => exact hs.keyDown k
  | _ => exact hs.of_guarded rfl

end Sys2Proof.Machine
end

section
/-! PROOFS. The statements of spec/10_state.md. -/

namespace Sys2Proof.Proofs

open Sys2Proof.Machine Sys2Proof.Claims

/-- Settles O40: the invariant does not read the schedule, and every outcome of an agent keeps it. -/
theorem everyStepKeepsTheInvariant : Obligations.EveryStepKeepsTheInvariant := by
  intro s t hs h
  exact (step_effect h).keeps_inv (hs.of_guarded rfl)

/-- Settles O49: every outcome of an agent but a reset keeps the extended mode. -/
theorem extendedModeStaysUntilReset : Obligations.ExtendedModeStaysUntilReset := by
  intro s t extended noReset h
  exact (step_effect h).keeps_extended (headD_ne_reset noReset) extended

/-- Settles O50: the machine is `Stopped`, where the step changes nothing but the schedule. -/
theorem recordedFaultStaysUntilReset : Obligations.RecordedFaultStaysUntilReset := by
  intro s t r stops recorded noReset h
  have stopped : s.ctrl = .stopped := stops (by simp [recorded])
  rw [step_eq_of_stopped stopped noReset h]
  exact recorded

/-- Settles O52, by the outcomes of an instruction: an unlisted register is none of those the outcome writes. -/
theorem registersAreWrittenOnlyAsListed : Obligations.RegistersAreWrittenOnlyAsListed := by
  intro i s t r free h unlisted
  cases exec_effect h with
  | reg _ x b hi =>
    have other : r ≠ x := by simpa [hi] using unlisted
    simp [State.loadReg, other]
  | random x kk =>
    have other : r ≠ x := by simpa [registersWritten] using unlisted
    simp [State.loadReg, other]
  | regFlag _ x result flag hi =>
    have other : r ≠ x ∧ r ≠ vf := by simpa [hi, vf] using unlisted
    simp [State.loadRegFlag, State.setResultFlag, other]
  | draw =>
    have other : r ≠ vf := by simpa [registersWritten, vf] using unlisted
    simp [State.drawn, other]
  | load x =>
    have above : x.val < r.val := Fin.lt_def.mp (by simpa [registersWritten] using unlisted)
    rw [State.complete_reg, State.setRegsFrom_reg, dif_neg]
    rw [Memory.length_readBytes]
    omega
  | resume x busy => exact absurd free busy
  | _ => rfl

/-- Settles O54, by the outcomes of an instruction: each writes at most one special part, and then names its
instructions. -/
theorem specialStateIsWrittenOnlyByItsInstructions : Obligations.SpecialStateIsWrittenOnlyByItsInstructions := by
  intro i s t h
  cases exec_effect h with
  | reg | random => simp [State.loadReg]
  | regFlag => simp [State.loadRegFlag, State.setResultFlag]
  | skip => simp [State.skipIf, State.jump]
  | jump | call | ret => simp [State.jump]
  | index _ a hi => simp [State.loadIndex, hi]
  | store => simp [State.store]
  | draw => simp [State.drawn]
  | resume =>
    unfold State.resumeWait
    split <;> simp [State.loadReg]
  | fault | load | delay | sound | clear | extend | park => simp

/-- Settles O44: registers and keys are constant vectors, the display is a cleared one, and memory has no cells. -/
theorem resetStateHasTheStatedValues : Obligations.ResetStateHasTheStatedValues := by
  have blank : State.reset.display = State.reset.display.clear := rfl
  refine ⟨fun x => ?_, rfl, rfl, rfl, rfl, rfl, rfl, ?_, fun k => ?_, rfl, rfl, rfl, fun a _ => ?_⟩
  · simp [State.reg, State.reset]
  · rw [blank, setPixels_clear]
  · simp [State.key, State.reset]
  · exact Memory.unlisted_eq a

end Sys2Proof.Proofs
end

section
/-! SUPPORT. Which parts of the state a tick and each request of the host change (spec/20_memory.md R57). -/

namespace Sys2Proof.Machine

theorem OnlyChanges.trans {s t u : State} {parts : List Part} (h : OnlyChanges s t parts)
    (h' : OnlyChanges t u parts) : OnlyChanges s u parts := by
  intro p hp
  have first := h p hp
  have second := h' p hp
  cases p <;> exact second.trans first

/-! ## The tick -/

theorem State.tickDelay_onlyChanges (s : State) : OnlyChanges s s.tickDelay [.dt, .notes] := by
  unfold State.tickDelay
  split
  · exact .refl s _
  · intro p hp
    cases p with
    | dt | notes => simp at hp
    | _ => rfl

theorem State.tickSound_onlyChanges (s : State) : OnlyChanges s s.tickSound [.st, .notes] := by
  unfold State.tickSound
  split
  · exact .refl s _
  · intro p hp
    cases p with
    | st | notes => simp at hp
    | _ => rfl

theorem tick_onlyChanges (s : State) : OnlyChanges s (tick s) [.dt, .st, .notes] := by
  by_cases stopped : s.ctrl = .stopped
  · rw [tick_stopped stopped]
    exact .refl s _
  · rw [tick_live stopped]
    have delay := s.tickDelay_onlyChanges.mono (m := [.dt, .st, .notes]) (by simp)
    have sound := s.tickDelay.tickSound_onlyChanges.mono (m := [.dt, .st, .notes]) (by simp)
    exact delay.trans sound

/-! ## The requests -/

theorem State.pause_onlyChanges (s : State) (flag : Bool) : OnlyChanges s (s.pause flag) [.ctrl, .notes] := by
  intro p hp
  cases p with
  | ctrl | notes => simp at hp
  | _ => unfold State.pause; split <;> rfl

theorem State.stop_onlyChanges (s : State) : OnlyChanges s s.stop [.ctrl, .notes] := by
  intro p hp
  cases p with
  | ctrl | notes => simp at hp
  | _ => rfl

theorem State.setInstrDelay_onlyChanges (s : State) (ms : Nat) :
    OnlyChanges s (s.setInstrDelay ms) [.instrDelay] := by
  intro p hp
  cases p with
  | instrDelay => simp at hp
  | _ => rfl

theorem State.setDisplay_onlyChanges (s : State) (d : Display) : OnlyChanges s (s.setDisplay d) [.display] := by
  intro p hp
  cases p with
  | display => simp at hp
  | _ => rfl

theorem State.setWait_onlyChanges (s : State) (w : Wait) : OnlyChanges s (s.setWait w) [.wait] := by
  intro p hp
  cases p with
  | wait => simp at hp
  | _ => rfl

theorem State.setKey_onlyChanges (s : State) (k : Key) (b : Bool) : OnlyChanges s (s.setKey k b) [.key k] := by
  intro p hp
  cases p with
  | key q =>
    have other : q ≠ k := by simpa using hp
    simp [Part.same, other]
  | _ => rfl

theorem State.keyDown_onlyChanges (s : State) (k : Key) : OnlyChanges s (s.keyDown k) [.key k, .wait] := by
  have flag (u : State) : OnlyChanges u (u.setKey k true) [.key k, .wait] :=
    (u.setKey_onlyChanges k true).mono (by simp)
  unfold State.keyDown
  split
  · exact .refl s _
  · split
    · exact ((s.setWait_onlyChanges _).mono (by simp)).trans (flag _)
    · exact flag s
    · exact flag s

end Sys2Proof.Machine
end

section
/-! SUPPORT. What an instruction can do to the record of a fault, and that every instruction answers a next state. -/

namespace Sys2Proof.Machine

open Sys2Proof.Claims

theorem withRange_total (s : State) (m : Nat) (done : State) : ∃ t, withRange s m done = .next t := by
  unfold withRange
  split <;> exact ⟨_, rfl⟩

/-- No instruction is refused and none stops outside the machine's own faults (log 1). -/
theorem exec_total (i : Instr) (s : State) : ∃ t, exec i s = .next t := by
  cases i with
  | call nnn =>
    simp only [exec, execCall]
    split <;> exact ⟨_, rfl⟩
  | ret =>
    simp only [exec, execRet]
    split <;> exact ⟨_, rfl⟩
  | ldKey x =>
    simp only [exec, execLdKey]
    split <;> exact ⟨_, rfl⟩
  | drw | ldBcd | dump | load => exact withRange_total s _ _
  | _ => exact ⟨_, rfl⟩

/-- An instruction whose bytes are not all in memory only takes the fault (R55). -/
theorem exec_outOfRange {i : Instr} {s : State} (touches : 1 ≤ bytesTouched i)
    (beyond : 0x1000 < s.index.toNat + bytesTouched i) :
    exec i s = .next (s.raise .addressOutOfRange (max s.index.toNat 0x1000)) := by
  cases i with
  | drw | ldBcd | dump | load => exact withRange_fault touches beyond
  | _ => simp [bytesTouched] at touches

theorem State.resumeWait_err (s : State) : s.resumeWait.err = s.err := by
  unfold State.resumeWait
  split <;> rfl

theorem withRange_err {s done t : State} {m : Nat} (h : withRange s m done = .next t) (keeps : done.err = s.err) :
    t.err = s.err ∨ ∃ kind info, t = s.raise kind info ∧
      (kind = .addressOutOfRange → 1 ≤ m ∧ 0x1000 < s.index.toNat + m) := by
  obtain ⟨-, rfl⟩ | ⟨touches, beyond, rfl⟩ := withRange_next h
  · exact .inl keeps
  · exact .inr ⟨_, _, rfl, fun _ => ⟨touches, beyond⟩⟩

/-- An instruction keeps the record of a fault or takes one, and it takes `AddressOutOfRange` only when a byte it
touches is above 0xFFF (R55, spec/60_exceptions.md R239). -/
theorem exec_err {i : Instr} {s t : State} (h : exec i s = .next t) :
    t.err = s.err ∨ ∃ kind info, t = s.raise kind info ∧
      (kind = .addressOutOfRange → 1 ≤ bytesTouched i ∧ 0x1000 < s.index.toNat + bytesTouched i) := by
  cases i with
  | drw | ldBcd | dump => exact withRange_err h rfl
  | load x => exact withRange_err h (by simp)
  | call nnn =>
    simp only [exec, execCall] at h
    split at h
    · cases h; exact .inr ⟨_, _, rfl, nofun⟩
    · cases h; exact .inl rfl
  | ret =>
    simp only [exec, execRet] at h
    split at h
    · cases h; exact .inr ⟨_, _, rfl, nofun⟩
    · cases h; exact .inl rfl
  | ldKey x =>
    simp only [exec, execLdKey] at h
    split at h <;> cases h
    · exact .inl rfl
    · exact .inl s.resumeWait_err
    · exact .inl s.resumeWait_err
  | unsupported w => cases h; exact .inr ⟨_, _, rfl, nofun⟩
  | _ => cases h; exact .inl rfl

end Sys2Proof.Machine
end

section
/-! SUPPORT. The bytes of a register dump in memory, and a word as the number of its two bytes. -/

namespace Sys2Proof.Machine

theorem wordOf_eq_ofNat (hi lo : Byte) : wordOf hi lo = BitVec.ofNat 16 (0x100 * hi.toNat + lo.toNat) := by
  rw [← wordOf_toNat, BitVec.ofNat_toNat, BitVec.setWidth_eq]

theorem execDump_ok {x : Reg} {s : State} (range : s.index.toNat + x.val ≤ 0xFFF) :
    exec (.dump x) s = .next (s.store (dumpBytes s x)) :=
  withRange_ok (.inr (by omega))

theorem read_store_dumpBytes (s : State) {x r : Reg} (h : r ≤ x) :
    (s.store (dumpBytes s x)).mem.read (s.index.toNat + r.val) = s.reg r := by
  have inside : r.val < (dumpBytes s x).length := by
    rw [length_dumpBytes]
    exact Nat.lt_succ_of_le h
  obtain ⟨stored, -⟩ := s.store_effect (dumpBytes s x)
  rw [stored r.val inside, getElem_dumpBytes]

end Sys2Proof.Machine
end

section
/-! PROOFS. The statements of spec/20_memory.md. -/

namespace Sys2Proof.Proofs

open Sys2Proof.Machine Sys2Proof.Claims

/-- Settles O23: out of range the instruction only takes the fault; in range the record is the old one or that of
another kind. -/
theorem wholeRangeIsCheckedBeforeAnyWrite : Obligations.WholeRangeIsCheckedBeforeAnyWrite := by
  intro i s
  refine ⟨fun touches beyond => ?_, fun range free => ?_⟩
  · exact ⟨_, exec_outOfRange touches (by omega), raise_takesFault s _ _⟩
  · obtain ⟨t, h⟩ := exec_total i s
    refine ⟨t, h, fun r recorded => ?_⟩
    obtain same | ⟨kind, info, rfl, beyond⟩ := exec_err h
    · simp [same, free] at recorded
    · obtain rfl : _ = r := Option.some.inj recorded
      intro address
      have := beyond address
      omega

/-- Settles O24: the word at `I + r` is that of the two stored registers, and its address can be fetched from. -/
theorem fetchSeesStoredBytesAtOnce : Obligations.FetchSeesStoredBytesAtOnce := by
  intro x s range
  refine ⟨_, execDump_ok range, fun r r' le succ pc placed even => ?_⟩
  have bound : r.val + 1 ≤ x.val := succ ▸ le
  have fetchable : Fetchable pc := ⟨even, by omega⟩
  have next : s.index.toNat + r.val + 1 = s.index.toNat + r'.val := by omega
  have high := read_store_dumpBytes s (x := x) (r := r) (Nat.le_of_succ_le bound)
  have low := read_store_dumpBytes s le
  rw [fetch_ok fetchable]
  simp only [State.setPc_mem, State.setPc_pc, Memory.word, placed, next, high, low, wordOf_eq_ofNat]

/-- Settles O51, by the requests; in `Stopped` nothing changes, in `Running` and `Paused` each has its own frame. -/
theorem timerAndHostWriteOnlyTheirParts : Obligations.TimerAndHostWriteOnlyTheirParts := by
  refine ⟨tick_onlyChanges, fun s t r notSingleStep notReset h => ?_⟩
  by_cases stopped : s.ctrl = .stopped
  · obtain rfl : t = s := (request_effect h).eq_of_stopped stopped fun image e =>
      notReset image (AgentStep.host.inj e)
    exact .refl t _
  · rw [request_live stopped] at h
    cases r with
    | singleStep => exact absurd rfl notSingleStep
    | reset image => exact absurd rfl (notReset image)
    | pause flag => cases h; exact (s.pause_onlyChanges flag).mono (by simp)
    | stop => cases h; exact s.stop_onlyChanges.mono (by simp)
    | setInstructionDelay ms => cases h; exact (s.setInstrDelay_onlyChanges ms).mono (by simp)
    | keyDown k => cases h; exact (s.keyDown_onlyChanges k).mono (by simp)
    | keyUp k => cases h; exact (s.setKey_onlyChanges k false).mono (by simp)
    | enableExtendedScreenMode => cases h; exact (s.setDisplay_onlyChanges _).mono (by simp)

end Sys2Proof.Proofs
end

section
/-! SUPPORT. The decoder group by group, for spec/30_encoding.md: which words a group leaves unsupported (R75), and
that decoding and encoding undo each other (R70, R76). -/

namespace Sys2Proof

variable {w : Word}

/-! ## The words a group of the map leaves unsupported -/

theorem decodeGroup0_eq_unsupported_iff :
    decodeGroup0 w = .unsupported w ↔ w ∉ [0x00E0#16, 0x00EE#16, 0x00FF#16] := by
  unfold decodeGroup0
  split <;> simp_all

theorem decodeGroup59_eq_unsupported_iff {mk : Reg → Reg → Instr} (other : ∀ x y v, mk x y ≠ .unsupported v) :
    decodeGroup59 mk w = .unsupported w ↔ fieldN w ≠ 0 := by
  unfold decodeGroup59
  split <;> simp_all

theorem decodeGroup8_eq_unsupported_iff :
    decodeGroup8 w = .unsupported w ↔
      fieldN w ∉ [0x0#4, 0x1#4, 0x2#4, 0x3#4, 0x4#4, 0x5#4, 0x6#4, 0x7#4, 0xE#4] := by
  unfold decodeGroup8
  split <;> simp_all

theorem decodeGroupE_eq_unsupported_iff :
    decodeGroupE w = .unsupported w ↔ fieldKK w ∉ [0x9E#8, 0xA1#8] := by
  unfold decodeGroupE
  split <;> simp_all

theorem decodeGroupF_eq_unsupported_iff :
    decodeGroupF w = .unsupported w ↔
      fieldKK w ∉ [0x07#8, 0x0A#8, 0x15#8, 0x18#8, 0x1E#8, 0x29#8, 0x33#8, 0x55#8, 0x65#8] := by
  unfold decodeGroupF
  split <;> simp_all

theorem toNat_div_of_fieldOp {op : Nibble} (h : fieldOp w = op) : w.toNat / 0x1000 = op.toNat := by
  rw [← h, fieldOp_toNat]
  omega

/-- The decoder leaves unsupported what R75's table, read by `supportedWord`, excludes. -/
theorem decode_eq_unsupported_iff : decode w = .unsupported w ↔ supportedWord w = false := by
  unfold decode
  split
  case h_1 h =>
    rw [decodeGroup0_eq_unsupported_iff]
    simp [supportedWord, toNat_div_of_fieldOp h, and_assoc]
  case h_6 h | h_10 h =>
    rw [decodeGroup59_eq_unsupported_iff (by simp)]
    simp [supportedWord, toNat_div_of_fieldOp h, ← BitVec.toNat_inj, fieldN_toNat]
  case h_9 h =>
    rw [decodeGroup8_eq_unsupported_iff]
    simp [supportedWord, toNat_div_of_fieldOp h, ← BitVec.toNat_inj, fieldN_toNat]
    omega
  case h_15 h =>
    rw [decodeGroupE_eq_unsupported_iff]
    simp [supportedWord, toNat_div_of_fieldOp h, ← BitVec.toNat_inj, fieldKK_toNat]
  case h_16 h =>
    rw [decodeGroupF_eq_unsupported_iff]
    simp [supportedWord, toNat_div_of_fieldOp h, ← BitVec.toNat_inj, fieldKK_toNat]
  case h_17 =>
    -- the sixteen patterns before this one cover every nibble
    exfalso
    generalize fieldOp w = op at *
    revert op
    decide
  all_goals
    next h => simp [supportedWord, toNat_div_of_fieldOp h]

/-! ## Decoding, then encoding -/

theorem packA_of_op {op : Nibble} (h : fieldOp w = op) : packA op (fieldNNN w) = w := h ▸ packA_fields w

theorem packXK_of_op {op : Nibble} (h : fieldOp w = op) : packXK op (fieldX w) (fieldKK w) = w :=
  h ▸ packXK_fields w

theorem packXK_of_op_kk {op : Nibble} {kk : Byte} (h : fieldOp w = op) (minor : fieldKK w = kk) :
    packXK op (fieldX w) kk = w := minor ▸ packXK_of_op h

theorem packXYN_of_op_n {op n : Nibble} (h : fieldOp w = op) (minor : fieldN w = n) :
    packXYN op (fieldX w) (fieldY w) n = w := by
  rw [← h, ← minor, packXYN_fields]

theorem encode_decodeGroup0 : encode (decodeGroup0 w) = w := by
  unfold decodeGroup0
  split <;> rfl

theorem encode_decodeGroup59 {op : Nibble} {mk : Reg → Reg → Instr}
    (format : ∀ x y, encode (mk x y) = packXYN op x y 0) (h : fieldOp w = op) :
    encode (decodeGroup59 mk w) = w := by
  unfold decodeGroup59
  split
  next minor => exact (format _ _).trans (packXYN_of_op_n h minor)
  next => rfl

theorem encode_decodeGroup8 (h : fieldOp w = 0x8#4) : encode (decodeGroup8 w) = w := by
  unfold decodeGroup8
  split
  case h_10 => rfl
  all_goals
    next minor => exact packXYN_of_op_n h minor

theorem encode_decodeGroupE (h : fieldOp w = 0xE#4) : encode (decodeGroupE w) = w := by
  unfold decodeGroupE
  split
  case h_3 => rfl
  all_goals
    next minor => exact packXK_of_op_kk h minor

theorem encode_decodeGroupF (h : fieldOp w = 0xF#4) : encode (decodeGroupF w) = w := by
  unfold decodeGroupF
  split
  case h_10 => rfl
  all_goals
    next minor => exact packXK_of_op_kk h minor

/-- No bit of a word is dropped (R70, R76). -/
theorem encode_decode (w : Word) : encode (decode w) = w := by
  unfold decode
  split
  case h_1 => exact encode_decodeGroup0
  case h_2 h | h_3 h | h_11 h | h_12 h => exact packA_of_op h
  case h_4 h | h_5 h | h_7 h | h_8 h | h_13 h => exact packXK_of_op h
  case h_6 h | h_10 h => exact encode_decodeGroup59 (fun _ _ => rfl) h
  case h_9 h => exact encode_decodeGroup8 h
  case h_14 h => exact packXYN_of_op_n h rfl
  case h_15 h => exact encode_decodeGroupE h
  case h_16 h => exact encode_decodeGroupF h
  case h_17 => rfl

/-- The only word `unsupported` carries is the decoded one. -/
theorem eq_of_decode_eq_unsupported {v : Word} (h : decode w = .unsupported v) : v = w := by
  rw [← encode_decode w, h]
  rfl

/-! ## Well-formed instructions -/

theorem unsupported_wellFormed_iff : (Instr.unsupported w).WellFormed ↔ supportedWord w = false := by
  simp [Instr.WellFormed, Instr.wf]

theorem decode_wellFormed (w : Word) : (decode w).WellFormed := by
  cases h : decode w with
  | unsupported v =>
    obtain rfl : v = w := eq_of_decode_eq_unsupported h
    exact unsupported_wellFormed_iff.2 (decode_eq_unsupported_iff.1 h)
  | _ => rfl

/-- Encoding, then decoding: the decoder reads back the fields the format packs. -/
theorem decode_encode {i : Instr} (wf : i.WellFormed) : decode (encode i) = i := by
  cases i with
  | cls | ret | hires => rfl
  | seReg | sneReg => simp [encode, decode, decodeGroup59]
  | ldReg | orReg | andReg | xorReg | addReg | subReg | shr | subnReg | shl => simp [encode, decode, decodeGroup8]
  | skp | sknp => simp [encode, decode, decodeGroupE]
  | ldFromDelay | ldKey | ldDelay | ldSound | addIndex | ldFont | ldBcd | dump | load =>
    simp [encode, decode, decodeGroupF]
  | unsupported w => exact decode_eq_unsupported_iff.2 (unsupported_wellFormed_iff.1 wf)
  | _ => simp [encode, decode]

end Sys2Proof
end

section
/-! SUPPORT. The opcode map of spec/30_encoding.md R74 read through the decoder: a match value lies on its own row, and
a row's mask keeps every field that the decoder reads to choose the row. -/

namespace Sys2Proof.Machine

variable {v w mask : Word}

/-! ## The fields a mask keeps -/

theorem fieldOp_and (w mask : Word) : fieldOp (w &&& mask) = fieldOp w &&& fieldOp mask := BitVec.extractLsb'_and

theorem fieldN_and (w mask : Word) : fieldN (w &&& mask) = fieldN w &&& fieldN mask := BitVec.extractLsb'_and

theorem fieldKK_and (w mask : Word) : fieldKK (w &&& mask) = fieldKK w &&& fieldKK mask := BitVec.extractLsb'_and

theorem fieldOp_eq_of_and_eq (h : w &&& mask = v) (kept : fieldOp mask = 0xF#4) : fieldOp w = fieldOp v := by
  rw [← h, fieldOp_and, kept]
  exact BitVec.and_allOnes.symm

theorem fieldN_eq_of_and_eq (h : w &&& mask = v) (kept : fieldN mask = 0xF#4) : fieldN w = fieldN v := by
  rw [← h, fieldN_and, kept]
  exact BitVec.and_allOnes.symm

theorem fieldKK_eq_of_and_eq (h : w &&& mask = v) (kept : fieldKK mask = 0xFF#8) : fieldKK w = fieldKK v := by
  rw [← h, fieldKK_and, kept]
  exact BitVec.and_allOnes.symm

/-! ## The fields that choose the row -/

theorem rowOf_decodeGroup59_congr {mk : Reg → Reg → Instr} {k : Nat} (row : ∀ x y, rowOf (mk x y) = k)
    (minor : fieldN w = fieldN v) : rowOf (decodeGroup59 mk w) = rowOf (decodeGroup59 mk v) := by
  unfold decodeGroup59
  rw [minor]
  split
  · rw [row, row]
  · rfl

theorem rowOf_decodeGroup8_congr (minor : fieldN w = fieldN v) :
    rowOf (decodeGroup8 w) = rowOf (decodeGroup8 v) := by
  unfold decodeGroup8
  rw [minor]
  split <;> rfl

theorem rowOf_decodeGroupE_congr (minor : fieldKK w = fieldKK v) :
    rowOf (decodeGroupE w) = rowOf (decodeGroupE v) := by
  unfold decodeGroupE
  rw [minor]
  split <;> rfl

theorem rowOf_decodeGroupF_congr (minor : fieldKK w = fieldKK v) :
    rowOf (decodeGroupF w) = rowOf (decodeGroupF v) := by
  unfold decodeGroupF
  rw [minor]
  split <;> rfl

/-- The row of a word depends on `op` and, in the groups that have one, on the minor opcode; in group 0 on the whole
word. -/
theorem rowOf_decode_congr (op : fieldOp w = fieldOp v)
    (whole : fieldOp v = 0x0#4 → w = v)
    (n : fieldOp v ∈ [0x5#4, 0x8#4, 0x9#4] → fieldN w = fieldN v)
    (kk : fieldOp v ∈ [0xE#4, 0xF#4] → fieldKK w = fieldKK v) :
    rowOf (decode w) = rowOf (decode v) := by
  unfold decode
  rw [op]
  split
  case h_1 h => rw [whole h]
  case h_6 h | h_10 h => exact rowOf_decodeGroup59_congr (fun _ _ => rfl) (n (by simp [h]))
  case h_9 h => exact rowOf_decodeGroup8_congr (n (by simp [h]))
  case h_15 h => exact rowOf_decodeGroupE_congr (kk (by simp [h]))
  case h_16 h => exact rowOf_decodeGroupF_congr (kk (by simp [h]))
  all_goals rfl

/-! ## The rows -/

/-- The mask of a row keeps the fields its group is told apart by. -/
theorem opcodeMap_mask_keeps : ∀ row ∈ opcodeMap, fieldOp row.1 = 0xF#4 ∧
    (fieldOp row.2 = 0x0#4 → row.1 = 0xFFFF#16) ∧
    (fieldOp row.2 ∈ [0x5#4, 0x8#4, 0x9#4] → fieldN row.1 = 0xF#4) ∧
    (fieldOp row.2 ∈ [0xE#4, 0xF#4] → fieldKK row.1 = 0xFF#8) := by
  simp [opcodeMap, fieldOp, fieldN, fieldKK]

theorem rowOf_decode_of_mem {row : Word × Word} (mem : row ∈ opcodeMap) (h : w &&& row.1 = row.2) :
    rowOf (decode w) = rowOf (decode row.2) := by
  obtain ⟨op, whole, n, kk⟩ := opcodeMap_mask_keeps row mem
  refine rowOf_decode_congr (fieldOp_eq_of_and_eq h op) (fun group => ?_)
    (fun group => fieldN_eq_of_and_eq h (n group)) (fun group => fieldKK_eq_of_and_eq h (kk group))
  rw [← h, whole group, mask_exact]

/-- The match value of row `k` decodes to an instruction of row `k`. -/
theorem rowOf_decode_match {k : Nat} {row : Word × Word} (at_k : opcodeMap[k]? = some row) :
    rowOf (decode row.2) = k := by
  obtain ⟨inside, rfl⟩ := List.getElem?_eq_some_iff.1 at_k
  have onRow : ∀ j : Fin 35, rowOf (decode opcodeMap[j].2) = j := by decide
  exact onRow ⟨k, inside⟩

/-- The per-instruction lemmas of Laws/PerInstr.lean, gathered. -/
theorem encode_lies_on_row : ∀ i : Instr, Laws.Row.Statement i
  | .cls => Laws.Row.cls
  | .ret => Laws.Row.ret
  | .hires => Laws.Row.hires
  | .jp nnn => Laws.Row.jp nnn
  | .call nnn => Laws.Row.call nnn
  | .seImm x kk => Laws.Row.seImm x kk
  | .sneImm x kk => Laws.Row.sneImm x kk
  | .seReg x y => Laws.Row.seReg x y
  | .ldImm x kk => Laws.Row.ldImm x kk
  | .addImm x kk => Laws.Row.addImm x kk
  | .ldReg x y => Laws.Row.ldReg x y
  | .orReg x y => Laws.Row.orReg x y
  | .andReg x y => Laws.Row.andReg x y
  | .xorReg x y => Laws.Row.xorReg x y
  | .addReg x y => Laws.Row.addReg x y
  | .subReg x y => Laws.Row.subReg x y
  | .shr x y => Laws.Row.shr x y
  | .subnReg x y => Laws.Row.subnReg x y
  | .shl x y => Laws.Row.shl x y
  | .sneReg x y => Laws.Row.sneReg x y
  | .ldIndex nnn => Laws.Row.ldIndex nnn
  | .jpV0 nnn => Laws.Row.jpV0 nnn
  | .rnd x kk => Laws.Row.rnd x kk
  | .drw x y n => Laws.Row.drw x y n
  | .skp x => Laws.Row.skp x
  | .sknp x => Laws.Row.sknp x
  | .ldFromDelay x => Laws.Row.ldFromDelay x
  | .ldKey x => Laws.Row.ldKey x
  | .ldDelay x => Laws.Row.ldDelay x
  | .ldSound x => Laws.Row.ldSound x
  | .addIndex x => Laws.Row.addIndex x
  | .ldFont x => Laws.Row.ldFont x
  | .ldBcd x => Laws.Row.ldBcd x
  | .dump x => Laws.Row.dump x
  | .load x => Laws.Row.load x
  | .unsupported w => Laws.Row.unsupported w

/-- A word matches row `k` exactly if it decodes to an instruction of row `k`. -/
theorem and_mask_eq_iff {k : Nat} {row : Word × Word} (at_k : opcodeMap[k]? = some row) :
    w &&& row.1 = row.2 ↔ rowOf (decode w) = k := by
  constructor
  · intro h
    rw [rowOf_decode_of_mem (List.mem_of_getElem? at_k) h, rowOf_decode_match at_k]
  · rintro rfl
    have onRow := encode_lies_on_row (decode w) row at_k
    simpa [matchesRow, encode_decode] using onRow

theorem eq_unsupported_or_rowOf_lt (i : Instr) : (∃ u, i = .unsupported u) ∨ rowOf i < opcodeMap.length := by
  cases i with
  | unsupported u => exact .inl ⟨u, rfl⟩
  | _ => exact .inr (by simp [rowOf, opcodeMap])

theorem decode_eq_unsupported_of_no_row (unmatched : ∀ row ∈ opcodeMap, w &&& row.1 ≠ row.2) :
    decode w = .unsupported w := by
  obtain ⟨u, h⟩ | inside := eq_unsupported_or_rowOf_lt (decode w)
  · rw [h, eq_of_decode_eq_unsupported h]
  · exact absurd ((and_mask_eq_iff (List.getElem?_eq_getElem inside)).2 rfl) (unmatched _ (List.getElem_mem inside))

theorem no_row_of_decode_eq_unsupported (h : decode w = .unsupported w) :
    ∀ row ∈ opcodeMap, w &&& row.1 ≠ row.2 := by
  intro row mem matched
  obtain ⟨k, inside, at_k⟩ := List.getElem_of_mem mem
  have onRow := (and_mask_eq_iff (List.getElem?_eq_some_iff.2 ⟨inside, at_k⟩)).1 matched
  rw [h] at onRow
  exact absurd inside (onRow ▸ Nat.lt_irrefl 35)

end Sys2Proof.Machine
end

section
/-! PROOFS. The statements of spec/30_encoding.md. -/

namespace Sys2Proof.Proofs

open Sys2Proof.Machine Sys2Proof.Claims

/-- Settles O1: as a word by the fields of the packed word, as bytes because the two bytes of a word read back as the
word. -/
theorem encodedWordDecodesToItsInstruction : Obligations.EncodedWordDecodesToItsInstruction := by
  intro i wf
  refine ⟨decode_encode wf, fun rest => ?_⟩
  rw [encodeBytes, decodeBytes_bytesOf, decode_encode wf]

/-- Settles O2, group by group of the decoder. -/
theorem decodedInstructionEncodesToItsWord : Obligations.DecodedInstructionEncodesToItsWord :=
  fun w => ⟨decode_wellFormed w, encode_decode w⟩

/-- Settles O3: a mask keeps what chooses the row, and the word an instruction encodes to lies on its row. -/
theorem decodeFollowsTheOpcodeMap : Obligations.DecodeFollowsTheOpcodeMap :=
  fun _ => ⟨fun _ _ at_k => and_mask_eq_iff at_k, no_row_of_decode_eq_unsupported, decode_eq_unsupported_of_no_row⟩

/-- Settles O4, group by group of R75's table. -/
theorem unsupportedWordsAreThoseOfTheGroups : Obligations.UnsupportedWordsAreThoseOfTheGroups := by
  intro w
  have group0 : w.toNat < 0x1000 ↔ w.toNat / 0x1000 = 0 := by omega
  rw [decode_eq_unsupported_iff, group0]
  simp only [supportedWord]
  split_ifs with h0 h5 h8 h9 hE hF
  · simp [h0, ← BitVec.toNat_inj, and_assoc]
  · simp [h5]
  · simp [h8]
    omega
  · simp [h9]
  · simp [hE]
  · simp [hF]
  · simp [h0, h5, h8, h9, hE, hF]

/-- Settles O5, by evaluating the decoder on the seventeen words. -/
theorem listedWordsDecodeAsListed : Obligations.ListedWordsDecodeAsListed := by
  unfold Obligations.ListedWordsDecodeAsListed
  decide

end Sys2Proof.Proofs
end

section
/-! SUPPORT. The words of spec/40_arithmetic_and_moves.md written as numbers, decoded (spec/30_encoding.md R71, R74). -/

namespace Sys2Proof

/-- A word of format XK decodes to the instruction that is encoded in it. -/
theorem decode_ofNat_XK {i : Instr} (op : Nibble) {x : Reg} {kk : Byte} (format : encode i = packXK op x kk)
    (wf : i.WellFormed) : decode (BitVec.ofNat 16 (0x1000 * op.toNat + 0x100 * x.val + kk.toNat)) = i := by
  rw [ofNat_packXK, ← format, decode_encode wf]

/-- A word of format XYN or XY decodes to the instruction that is encoded in it; `n` is the minor opcode of format
XY. -/
theorem decode_ofNat_XYN {i : Instr} (op n : Nibble) {x y : Reg} (format : encode i = packXYN op x y n)
    (wf : i.WellFormed) :
    decode (BitVec.ofNat 16 (0x1000 * op.toNat + n.toNat + 0x100 * x.val + 0x10 * y.val)) = i := by
  have fields : 0x1000 * op.toNat + n.toNat + 0x100 * x.val + 0x10 * y.val =
      0x1000 * op.toNat + 0x100 * x.val + 0x10 * y.val + n.toNat := by omega
  rw [fields, ofNat_packXYN, ← format, decode_encode wf]

end Sys2Proof
end

section
/-! SUPPORT. The arithmetic of bytes as numbers, and the two shared meanings of spec/40_arithmetic_and_moves.md in the
form its statements have. -/

namespace Sys2Proof.Machine

open Sys2Proof.Claims

/-! ## Differences, halves and doubles of a byte, and the bits a shift drops -/

theorem byte_sub_toNat (a b : Byte) : (a - b).toNat = (a.toNat + 256 - b.toNat) % 256 := by
  rw [BitVec.toNat_sub]
  omega

theorem byte_shiftRight_one_toNat (a : Byte) : (a >>> 1).toNat = a.toNat / 2 := by
  rw [BitVec.toNat_ushiftRight, Nat.shiftRight_one]

theorem byte_shiftLeft_one_toNat (a : Byte) : (a <<< 1).toNat = 2 * a.toNat % 256 := by
  rw [BitVec.toNat_shiftLeft, Nat.shiftLeft_eq, Nat.mul_comm]

theorem byte_getLsbD_zero (a : Byte) : a.getLsbD 0 = true ↔ a.toNat % 2 = 1 := by
  simp [BitVec.getLsbD]

theorem byte_getLsbD_seven (a : Byte) : a.getLsbD 7 = true ↔ 128 ≤ a.toNat := by
  have top : a.getLsbD 7 = decide (128 ≤ a.toNat) := (BitVec.msb_eq_getLsbD_last a).symm.trans a.msb_eq_decide
  rw [top, decide_eq_true_iff]

/-! ## One register, or a register and its flag -/

/-- An instruction whose meaning is `loadReg` loads its register. -/
theorem loadsRegister_of_exec {i : Instr} {x : Reg} {value : State → Nat} (b : State → Byte)
    (meaning : ∀ s, exec i s = .next (s.loadReg x (b s))) (result : ∀ s, (b s).toNat = value s) :
    LoadsRegister i x value := by
  intro s
  obtain ⟨written, next, frame, -⟩ := s.loadReg_effect x (b s)
  exact ⟨_, meaning s, by rw [written, result], next, frame⟩

/-- An instruction whose meaning is `loadRegFlag` loads its register and the flag: VF, written last, is 1 exactly when
the flag's condition holds, also for `x = 15` (R100). -/
theorem loadsRegisterAndFlag_of_exec {i : Instr} {x : Reg} {value : State → Nat} {flag : State → Prop}
    (b : State → Byte) (bit : State → Bool)
    (meaning : ∀ s, exec i s = .next (s.loadRegFlag x (b s) (flagOf (bit s))))
    (result : ∀ s, (b s).toNat = value s) (set : ∀ s, bit s = true ↔ flag s) :
    LoadsRegisterAndFlag i x value flag := by
  intro s
  obtain ⟨written, flagged, next, frame, -⟩ := s.loadRegFlag_effect x (b s) (flagOf (bit s))
  refine ⟨_, meaning s, fun other => by rw [written other, result], fun holds => ?_, fun fails => ?_, next, frame⟩
  · rw [flagged, (set s).2 holds]
    rfl
  · rw [flagged, Bool.eq_false_iff.2 (mt (set s).1 fails)]
    rfl

/-! ## The draw of RND -/

theorem State.countDraw_onlyChanges (s : State) : OnlyChanges s s.countDraw [.draws] := by
  intro p hp
  cases p with
  | draws => simp at hp
  | _ => rfl

end Sys2Proof.Machine
end

section
/-! PROOFS. The statements of spec/40_arithmetic_and_moves.md. -/

namespace Sys2Proof.Proofs

open Sys2Proof.Machine Sys2Proof.Claims

/-- Settles O6: the three meanings are `loadReg` of the immediate, the wrapped sum and the other register. -/
theorem movesAndImmediateAddWriteOneRegister : Obligations.MovesAndImmediateAddWriteOneRegister := by
  refine ⟨fun x kk => ⟨decode_ofNat_XK 0x6 rfl rfl, ?_⟩, fun x kk => ⟨decode_ofNat_XK 0x7 rfl rfl, ?_⟩,
    fun x y => ⟨decode_ofNat_XYN 0x8 0x0 rfl rfl, ?_⟩⟩
  · exact loadsRegister_of_exec (fun _ => kk) (fun _ => rfl) fun _ => rfl
  · exact loadsRegister_of_exec (fun s => s.reg x + kk) (fun _ => rfl) fun _ => BitVec.toNat_add _ _
  · exact loadsRegister_of_exec (fun s => s.reg y) (fun _ => rfl) fun _ => rfl

/-- Settles O7: `loadRegFlag` of the wrapped sum with the carry. -/
theorem addRegistersWrapsAndSetsCarry : Obligations.AddRegistersWrapsAndSetsCarry := by
  refine fun x y => ⟨decode_ofNat_XYN 0x8 0x4 rfl rfl, ?_⟩
  exact loadsRegisterAndFlag_of_exec (fun s => s.reg x + s.reg y) _ (fun _ => rfl) (fun _ => BitVec.toNat_add _ _)
    fun _ => decide_eq_true_iff

/-- Settles O8: `loadRegFlag` of the wrapped difference with the absence of a borrow; SUBN exchanges the operands. -/
theorem subtractsWrapAndSetNoBorrow : Obligations.SubtractsWrapAndSetNoBorrow := by
  refine ⟨fun x y => ⟨decode_ofNat_XYN 0x8 0x5 rfl rfl, ?_⟩, fun x y => ⟨decode_ofNat_XYN 0x8 0x7 rfl rfl, ?_⟩⟩
  · exact loadsRegisterAndFlag_of_exec (fun s => s.reg x - s.reg y) _ (fun _ => rfl)
      (fun _ => byte_sub_toNat _ _) fun _ => decide_eq_true_iff
  · exact loadsRegisterAndFlag_of_exec (fun s => s.reg y - s.reg x) _ (fun _ => rfl)
      (fun _ => byte_sub_toNat _ _) fun _ => decide_eq_true_iff

/-- Settles O9: `loadRegFlag` of the half with bit 0, and of the double with bit 7; neither reads `y`. -/
theorem shiftsAreInPlaceAndSetTheBitShiftedOut : Obligations.ShiftsAreInPlaceAndSetTheBitShiftedOut := by
  refine ⟨fun x y => ⟨decode_ofNat_XYN 0x8 0x6 rfl rfl, ?_⟩, fun x y => ⟨decode_ofNat_XYN 0x8 0xE rfl rfl, ?_⟩⟩
  · exact loadsRegisterAndFlag_of_exec (fun s => s.reg x >>> 1) (fun s => (s.reg x).getLsbD 0) (fun _ => rfl)
      (fun _ => byte_shiftRight_one_toNat _) fun _ => byte_getLsbD_zero _
  · exact loadsRegisterAndFlag_of_exec (fun s => s.reg x <<< 1) (fun s => (s.reg x).getLsbD 7) (fun _ => rfl)
      (fun _ => byte_shiftLeft_one_toNat _) fun _ => byte_getLsbD_seven _

/-- Settles O10: the draw is counted and the drawn byte under the mask is loaded, so no bit outside the mask is left. -/
theorem randomWritesAByteUnderTheMask : Obligations.RandomWritesAByteUnderTheMask := by
  refine fun x kk => ⟨decode_ofNat_XK 0xC rfl rfl, fun s => ?_⟩
  obtain ⟨written, next, frame, -⟩ := s.countDraw.loadReg_effect x (Config.drawByte s.draws &&& kk)
  have outside : (Config.drawByte s.draws &&& kk) &&& ~~~kk = 0x00#8 := by
    rw [BitVec.and_assoc, BitVec.and_not_self]
    exact BitVec.and_zero
  have counted : OnlyChanges s s.countDraw [.reg x, .pc, .notes, .draws] := s.countDraw_onlyChanges.mono (by simp)
  exact ⟨_, rfl, written, by rw [written, outside], rfl, next, counted.trans (frame.mono (by simp))⟩

end Sys2Proof.Proofs
end

section
/-! PROOFS. The statement of spec/41_logic.md. -/

namespace Sys2Proof.Proofs

open Sys2Proof.Machine

/-- Settles O11: `loadReg` of the or, the and, the exclusive or of the two registers, whose bits are those of the
operands; its frame names VF only as `Vx` itself (decision D7). -/
theorem logicWorksBitByBit : Obligations.LogicWorksBitByBit := by
  refine fun x y => ⟨decode_ofNat_XYN 0x8 0x1 rfl rfl, decode_ofNat_XYN 0x8 0x2 rfl rfl,
    decode_ofNat_XYN 0x8 0x3 rfl rfl, fun s => ?_⟩
  obtain ⟨orWritten, orNext, orFrame, -⟩ := s.loadReg_effect x (s.reg x ||| s.reg y)
  obtain ⟨andWritten, andNext, andFrame, -⟩ := s.loadReg_effect x (s.reg x &&& s.reg y)
  obtain ⟨xorWritten, xorNext, xorFrame, -⟩ := s.loadReg_effect x (s.reg x ^^^ s.reg y)
  refine ⟨_, _, _, rfl, rfl, rfl, fun k _ => ?_, fun k _ => ?_, fun k _ => ?_, ?_⟩
  · rw [orWritten, BitVec.getLsbD_or]
  · rw [andWritten, BitVec.getLsbD_and]
  · rw [xorWritten, BitVec.getLsbD_xor]
  · simp only [List.forall_mem_cons]
    exact ⟨⟨orNext, orFrame⟩, ⟨andNext, andFrame⟩, ⟨xorNext, xorFrame⟩, List.forall_mem_nil _⟩

end Sys2Proof.Proofs
end

section
/-! SUPPORT. The words of spec/42_control_flow.md written as numbers, decoded (spec/30_encoding.md R71, R74, R76). -/

namespace Sys2Proof

/-- A word of format A decodes to the instruction that is encoded in it. -/
theorem decode_ofNat_A {i : Instr} (op : Nibble) {nnn : Addr12} (format : encode i = packA op nnn)
    (wf : i.WellFormed) : decode (BitVec.ofNat 16 (0x1000 * op.toNat + nnn.toNat)) = i := by
  rw [ofNat_packA, ← format, decode_encode wf]

/-- The groups of the two register-to-register skips leave every other low nibble unsupported (R76). -/
theorem decode_ofNat_nonzero_nibble {op : Nibble} (skips : op = 0x5#4 ∨ op = 0x9#4) (x y : Reg) {n : Nibble}
    (other : n ≠ 0) :
    ∃ w, decode (BitVec.ofNat 16 (0x1000 * op.toNat + 0x100 * x.val + 0x10 * y.val + n.toNat)) = .unsupported w := by
  have minor : fieldN (packXYN op x y n) ≠ 0 := by rwa [fieldN_packXYN]
  refine ⟨packXYN op x y n, ?_⟩
  rw [ofNat_packXYN, decode, fieldOp_packXYN]
  obtain rfl | rfl := skips <;> exact (decodeGroup59_eq_unsupported_iff (by simp)).2 minor

end Sys2Proof
end

section
/-! SUPPORT. The shared meanings of spec/42_control_flow.md in the form its statements have, the outcomes of CALL and
RET, and that calls followed by as many returns are balanced. -/

namespace Sys2Proof.Machine

open Sys2Proof.Claims

/-! ## Jumps and skips -/

/-- An instruction whose meaning is `jump` transfers to its target. -/
theorem transfersTo_of_exec {i : Instr} {target : State → Nat} (a : State → Word)
    (meaning : ∀ s, exec i s = .next (s.jump (a s))) (result : ∀ s, (a s).toNat = target s) :
    TransfersTo i target := by
  intro s
  obtain ⟨written, frame, -⟩ := s.jump_effect (a s)
  exact ⟨_, meaning s, by rw [written, result], frame⟩

/-- An instruction whose meaning is `skipIf` skips exactly when its condition holds. -/
theorem skipsWhen_of_exec {i : Instr} {condition : State → Prop} (taken : State → Bool)
    (meaning : ∀ s, exec i s = .next (s.skipIf (taken s))) (skips : ∀ s, taken s = true ↔ condition s) :
    SkipsWhen i condition := by
  intro s
  obtain ⟨written, frame, -⟩ := s.skipIf_effect (taken s)
  refine ⟨_, meaning s, fun holds => ?_, fun fails => ?_, frame⟩
  · rw [written, if_pos ((skips s).2 holds)]
  · rw [written, if_neg (mt (skips s).1 fails)]

/-- The sum of JP V0,nnn does not wrap: it is at most `0xFFF + 0xFF` (R132). -/
theorem offset_target_toNat (nnn : Addr12) (b : Byte) :
    (zextAddr nnn + zextByte b).toNat = nnn.toNat + b.toNat := by
  rw [BitVec.toNat_add_of_lt (by rw [zextAddr_toNat, zextByte_toNat]; omega), zextAddr_toNat, zextByte_toNat]

/-! ## Calls and returns -/

theorem State.setStack_onlyChanges (s : State) (k : List Word) : OnlyChanges s (s.setStack k) [.stack] := by
  intro p hp
  cases p with
  | stack => simp at hp
  | _ => rfl

/-- The stack written, then a transfer: what a call and a return have in common. -/
theorem State.setStack_jump_effect (s : State) (k : List Word) (target : Word) :
    ((s.setStack k).jump target).stack = k ∧ ((s.setStack k).jump target).pc = target ∧
      OnlyChanges s ((s.setStack k).jump target) [.stack, .pc, .notes] := by
  obtain ⟨written, frame, -⟩ := (s.setStack k).jump_effect target
  exact ⟨rfl, written, ((s.setStack_onlyChanges k).mono (by simp)).trans (frame.mono (by simp))⟩

variable {s : State}

/-- A call with room on the stack (R133). -/
theorem exec_call_of_room (nnn : Addr12) (room : s.stack.length < 16) :
    ∃ t, exec (.call nnn) s = .next t ∧ t.stack = s.stack ++ [s.nextPc] ∧ t.pc = zextAddr nnn ∧
      OnlyChanges s t [.stack, .pc, .notes] :=
  ⟨_, if_neg (Nat.not_le.2 room), s.setStack_jump_effect _ _⟩

/-- A call on a full stack (R133). -/
theorem exec_call_of_full (nnn : Addr12) (full : s.stack.length = 16) :
    ∃ t, exec (.call nnn) s = .next t ∧ TakesFault s t .stackOverflow s.pc.toNat :=
  ⟨_, if_pos full.ge, raise_takesFault s _ _⟩

/-- A return to the last entry of the stack (R134). -/
theorem exec_ret_of_append {below : List Word} {top : Word} (stack : s.stack = below ++ [top]) :
    ∃ t, exec .ret s = .next t ∧ t.stack = below ∧ t.pc = top ∧ OnlyChanges s t [.stack, .pc, .notes] :=
  ⟨_, by simp [exec, execRet, stack], s.setStack_jump_effect below top⟩

/-- A return on an empty stack (R134). -/
theorem exec_ret_of_nil (stack : s.stack = []) :
    ∃ t, exec .ret s = .next t ∧ TakesFault s t .stackUnderflow s.pc.toNat :=
  ⟨_, by simp [exec, execRet, stack], raise_takesFault s _ _⟩

/-! ## Instructions one after the other -/

theorem execAll_cons_of_next {i : Instr} {t : State} (h : exec i s = .next t) (is : List Instr) :
    execAll (i :: is) s = execAll is t := by
  rw [execAll, h]

theorem execAll_append_of_next {is : List Instr} {t : State} (h : execAll is s = .next t) (js : List Instr) :
    execAll (is ++ js) s = execAll js t := by
  induction is generalizing s with
  | nil => cases h; rfl
  | cons i is ih =>
    obtain ⟨u, first⟩ := exec_total i s
    rw [execAll_cons_of_next first] at h
    rw [List.cons_append, execAll_cons_of_next first, ih h]

/-- Calls with room for all of them, then as many returns: the returns undo the calls, the first call's one last. -/
theorem execAll_calls_returns (targets : List Addr12) (room : s.stack.length + targets.length ≤ 16) :
    ∃ t u, execAll (targets.map .call) s = .next t ∧ t.stack.length = s.stack.length + targets.length ∧
      execAll (List.replicate targets.length .ret) t = .next u ∧
      u.stack = s.stack ∧ (targets ≠ [] → u.pc = s.nextPc) ∧ u.err = s.err := by
  induction targets generalizing s with
  | nil => exact ⟨s, s, rfl, rfl, rfl, rfl, fun nonempty => absurd rfl nonempty, rfl⟩
  | cons nnn targets ih =>
    rw [List.length_cons] at room ⊢
    obtain ⟨v, called, pushed, -, callFrame⟩ := exec_call_of_room nnn (s := s) (by omega)
    have deeper : v.stack.length = s.stack.length + 1 := by rw [pushed, List.length_append, List.length_singleton]
    obtain ⟨t, w, calls, depth, returns, stack, -, err⟩ := ih (s := v) (by omega)
    obtain ⟨u, returned, popped, pc, retFrame⟩ := exec_ret_of_append (stack.trans pushed)
    have kept : u.err = s.err := calc
      u.err = w.err := retFrame .err (by simp)
      _ = v.err := err
      _ = s.err := callFrame .err (by simp)
    refine ⟨t, u, ?_, by omega, ?_, popped, fun _ => pc, kept⟩
    · rw [List.map_cons, execAll_cons_of_next called, calls]
    · rw [List.replicate_succ', execAll_append_of_next returns, execAll_cons_of_next returned, execAll]

end Sys2Proof.Machine
end

section
/-! PROOFS. The statements of spec/42_control_flow.md. -/

namespace Sys2Proof.Proofs

open Sys2Proof.Machine Sys2Proof.Claims

/-- Settles O17: calls and as many returns are balanced, and 16 calls from an empty stack fill it. -/
theorem nestedCallsUnwind : Obligations.NestedCallsUnwind := by
  intro targets s nonempty atMost empty
  obtain ⟨t, u, calls, depth, returns, stack, pc, err⟩ :=
    execAll_calls_returns targets (s := s) (by simpa [empty] using atMost)
  rw [empty, List.length_nil, Nat.zero_add] at depth
  refine ⟨t, u, calls, depth, returns, stack.trans empty, pc nonempty, err, fun sixteen nnn => ?_⟩
  exact exec_call_of_full nnn (depth.trans sixteen)

/-- Settles O12: the meaning is `jump` to the widened address. -/
theorem jumpWritesItsTarget : Obligations.JumpWritesItsTarget := by
  refine fun nnn => ⟨decode_ofNat_A 0x1 rfl rfl, ?_⟩
  exact transfersTo_of_exec (fun _ => zextAddr nnn) (fun _ => rfl) fun _ => zextAddr_toNat nnn

/-- Settles O13: the meaning is `jump` to the sum with V0, which does not wrap (decision D9). -/
theorem jumpWithOffsetAddsV0 : Obligations.JumpWithOffsetAddsV0 := by
  refine fun nnn => ⟨decode_ofNat_A 0xB rfl rfl, ?_⟩
  exact transfersTo_of_exec (fun s => zextAddr nnn + zextByte (s.reg 0)) (fun _ => rfl)
    fun _ => offset_target_toNat nnn _

/-- Settles O14, by the depth of the stack: with room the call pushes and jumps, on a full stack it only takes the
fault. -/
theorem callPushesOrOverflows : Obligations.CallPushesOrOverflows := by
  refine fun nnn => ⟨decode_ofNat_A 0x2 rfl rfl, fun s => ⟨fun room => ?_, exec_call_of_full nnn⟩⟩
  obtain ⟨t, called, pushed, pc, frame⟩ := exec_call_of_room nnn room
  exact ⟨t, called, pushed, by rw [pc, zextAddr_toNat], frame⟩

/-- Settles O15, by the stack: the last entry is popped into `PC`, on an empty stack the return only takes the fault. -/
theorem returnPopsOrUnderflows : Obligations.ReturnPopsOrUnderflows :=
  ⟨rfl, fun _ _ _ => exec_ret_of_append, fun _ => exec_ret_of_nil⟩

/-- Settles O16: the four meanings are `skipIf` of the comparison; any other low nibble of the register forms is outside
the opcode map. -/
theorem registerSkipsFollowTheirCondition : Obligations.RegisterSkipsFollowTheirCondition := by
  refine ⟨fun x kk => ⟨decode_ofNat_XK 0x3 rfl rfl, ?_⟩, fun x kk => ⟨decode_ofNat_XK 0x4 rfl rfl, ?_⟩,
    fun x y => ⟨decode_ofNat_XYN 0x5 0x0 rfl rfl, ?_, fun n => decode_ofNat_nonzero_nibble (.inl rfl) x y⟩,
    fun x y => ⟨decode_ofNat_XYN 0x9 0x0 rfl rfl, ?_, fun n => decode_ofNat_nonzero_nibble (.inr rfl) x y⟩⟩
  · exact skipsWhen_of_exec (fun s => s.reg x == kk) (fun _ => rfl) fun _ => beq_iff_eq
  · exact skipsWhen_of_exec (fun s => s.reg x != kk) (fun _ => rfl) fun _ => bne_iff_ne
  · exact skipsWhen_of_exec (fun s => s.reg x == s.reg y) (fun _ => rfl) fun _ => beq_iff_eq
  · exact skipsWhen_of_exec (fun s => s.reg x != s.reg y) (fun _ => rfl) fun _ => bne_iff_ne

end Sys2Proof.Proofs
end

section
/-! SUPPORT. The words of spec/43_memory_instructions.md written as numbers, decoded (spec/30_encoding.md R71, R74). -/

namespace Sys2Proof

/-- A word of format X decodes to the instruction that is encoded in it; `kk` is the minor opcode. -/
theorem decode_ofNat_X {i : Instr} (op : Nibble) (kk : Byte) {x : Reg} (format : encode i = packXK op x kk)
    (wf : i.WellFormed) : decode (BitVec.ofNat 16 (0x1000 * op.toNat + kk.toNat + 0x100 * x.val)) = i := by
  rw [Nat.add_right_comm, decode_ofNat_XK op format wf]

end Sys2Proof
end

section
/-! SUPPORT. The shared meanings of spec/43_memory_instructions.md in the form its statements have, and what any
instruction can do to memory. -/

namespace Sys2Proof.Machine

open Sys2Proof.Claims

/-! ## The index register -/

/-- An instruction whose meaning is `loadIndex` loads `I`. -/
theorem loadsIndex_of_exec {i : Instr} {value : State → Nat} (a : State → Word)
    (meaning : ∀ s, exec i s = .next (s.loadIndex (a s))) (result : ∀ s, (a s).toNat = value s) :
    LoadsIndex i value := by
  intro s
  obtain ⟨written, next, frame, -⟩ := s.loadIndex_effect (a s)
  exact ⟨_, meaning s, by rw [written, result], next, frame⟩

/-! ## The decimal digits of a byte (R154) -/

/-- A digit fits a byte: the hundreds are at most 2, the others at most 9. -/
theorem decimalDigits_toNat (b : Byte) :
    (decimalDigits b)[0].toNat = b.toNat / 100 ∧ (decimalDigits b)[1].toNat = b.toNat / 10 % 10 ∧
      (decimalDigits b)[2].toNat = b.toNat % 10 := by
  have fits {k : Nat} (h : k < 2 ^ 8) : (BitVec.ofNat 8 k).toNat = k :=
    (BitVec.toNat_ofNat k 8).trans (Nat.mod_eq_of_lt h)
  exact ⟨fits (by omega), fits (by omega), fits (by omega)⟩

/-! ## Registers loaded from memory (R156) -/

theorem State.setRegsFrom_readBytes_reg (s : State) (m : Memory) (a : Nat) {n : Nat} {r : Reg} (h : r.val < n) :
    (s.setRegsFrom 0 (m.readBytes a n)).reg r = m.read (a + r.val) := by
  rw [State.setRegsFrom_reg, dif_pos ⟨Nat.zero_le _, by simpa using h⟩, Memory.getElem_readBytes, Nat.sub_zero]

theorem State.setRegsFrom_onlyChanges (s : State) {bs : List Byte} {x : Reg} (len : bs.length = x.val + 1) :
    OnlyChanges s (s.setRegsFrom 0 bs) (((List.finRange 16).filter fun r => r ≤ x).map .reg) := by
  intro p hp
  cases p with
  | reg r =>
    have above : x.val < r.val := Fin.lt_def.mp (by simpa using hp)
    have beyond : ¬ r.val - 0 < bs.length := by omega
    rw [Part.same, State.setRegsFrom_reg, dif_neg fun inside => beyond inside.2]
  | _ => simp [Part.same]

theorem State.complete_onlyChanges (s : State) (target : Word) (regs : List Reg) (others : List Notification) :
    OnlyChanges s (s.complete target regs others) [.pc, .notes] := by
  intro p hp
  cases p with
  | pc | notes => simp at hp
  | _ => rfl

/-! ## Memory -/

theorem State.resumeWait_mem (s : State) : s.resumeWait.mem = s.mem := by
  unfold State.resumeWait
  split <;> rfl

/-- An instruction leaves memory as it is or is one of the two stores, all of its bytes inside memory (R157). -/
theorem exec_mem {i : Instr} {s t : State} (h : exec i s = .next t) :
    t.mem = s.mem ∨ ∃ bs, t = s.store bs ∧ (∃ x, i = .ldBcd x ∨ i = .dump x) ∧ bs.length = bytesTouched i ∧
      s.index.toNat + bs.length ≤ 0x1000 := by
  cases exec_effect h with
  | store _ bs hi len range => exact .inr ⟨bs, rfl, hi, len, range⟩
  | load x => exact .inl (by simp)
  | resume x busy => exact .inl s.resumeWait_mem
  | _ => exact .inl rfl

/-- A store changes only bytes it stores to. -/
theorem State.store_read_ne {s : State} {bs : List Byte} {a : Nat}
    (changed : (s.store bs).mem.read a ≠ s.mem.read a) : s.index.toNat ≤ a ∧ a < s.index.toNat + bs.length := by
  obtain ⟨-, -, frame, -⟩ := s.store_effect bs
  rw [← mem_bytesAt]
  by_contra outside
  exact changed (frame (.byte a) (by simpa using outside))

end Sys2Proof.Machine
end

section
/-! PROOFS. The statements of spec/43_memory_instructions.md. -/

namespace Sys2Proof.Proofs

open Sys2Proof.Machine Sys2Proof.Claims

/-- Settles O53: memory is the old one, or that of a store, which changes only bytes it stores to. -/
theorem memoryIsWrittenOnlyByTheTwoStores : Obligations.MemoryIsWrittenOnlyByTheTwoStores := by
  intro i s t a h changed
  obtain same | ⟨bs, rfl, stores, len, range⟩ := exec_mem h
  · exact absurd (by rw [same]) changed
  · obtain ⟨low, high⟩ := State.store_read_ne changed
    exact ⟨stores, low, len ▸ high, by omega⟩

/-- Settles O18: the meaning is `loadIndex` of the widened address. -/
theorem indexIsLoadedWithAnAddress : Obligations.IndexIsLoadedWithAnAddress := by
  refine fun nnn => ⟨decode_ofNat_A 0xA rfl rfl, ?_⟩
  exact loadsIndex_of_exec (fun _ => zextAddr nnn) (fun _ => rfl) fun _ => zextAddr_toNat nnn

/-- Settles O19: `loadIndex` of the wrapped sum (decision D8), and of the address of the low nibble's glyph (decision
D10). -/
theorem indexIsAddedToAndPointedAtGlyphs : Obligations.IndexIsAddedToAndPointedAtGlyphs := by
  refine ⟨fun x => ⟨decode_ofNat_X 0xF 0x1E rfl rfl, ?_⟩, fun x => ⟨decode_ofNat_X 0xF 0x29 rfl rfl, ?_⟩⟩
  · exact loadsIndex_of_exec (fun s => s.index + zextByte (s.reg x)) (fun _ => rfl)
      fun s => by rw [BitVec.toNat_add, zextByte_toNat]
  · exact loadsIndex_of_exec (fun s => glyphAddress (lowNibble (s.reg x))) (fun _ => rfl)
      fun s => by rw [glyphAddress_toNat, lowNibble_val]

/-- Settles O20: in range the meaning is `store` of the three digits, out of range only the fault. -/
theorem decimalDigitsAreStored : Obligations.DecimalDigitsAreStored := by
  refine fun x => ⟨decode_ofNat_X 0xF 0x33 rfl rfl, fun s => ⟨fun range => ?_, fun beyond => ?_⟩⟩
  · obtain ⟨stored, next, frame, -⟩ := s.store_effect (decimalDigits (s.reg x))
    obtain ⟨hundreds, tens, ones⟩ := decimalDigits_toNat (s.reg x)
    refine ⟨_, withRange_ok (.inr (by omega)), ?_, ?_, ?_, next, frame⟩
    · exact (congrArg BitVec.toNat (stored 0 (by simp))).trans hundreds
    · exact (congrArg BitVec.toNat (stored 1 (by simp))).trans tens
    · exact (congrArg BitVec.toNat (stored 2 (by simp))).trans ones
  · obtain ⟨outOfRange, -⟩ := wholeRangeIsCheckedBeforeAnyWrite (.ldBcd x) s
    exact outOfRange (by decide : 1 ≤ 3) (Nat.add_lt_add_right beyond 2)

/-- Settles O21: in range the meaning is `store` of V0 to Vx, out of range only the fault. -/
theorem registerDumpStoresV0ToVx : Obligations.RegisterDumpStoresV0ToVx := by
  refine fun x => ⟨decode_ofNat_X 0xF 0x55 rfl rfl, fun s => ⟨fun range => ?_, fun beyond => ?_⟩⟩
  · obtain ⟨-, next, frame, -⟩ := s.store_effect (dumpBytes s x)
    rw [length_dumpBytes] at frame
    exact ⟨_, execDump_ok range, fun r => read_store_dumpBytes s, next, frame⟩
  · obtain ⟨outOfRange, -⟩ := wholeRangeIsCheckedBeforeAnyWrite (.dump x) s
    exact outOfRange (Nat.le_add_left 1 _) beyond

/-- Settles O22: in range V0 to Vx are set to the bytes at `I` and the instruction completes, out of range it only takes
the fault. -/
theorem registerLoadReadsV0ToVx : Obligations.RegisterLoadReadsV0ToVx := by
  refine fun x => ⟨decode_ofNat_X 0xF 0x65 rfl rfl, fun s => ⟨fun range => ?_, fun beyond => ?_⟩⟩
  · have loaded : OnlyChanges s (s.setRegsFrom 0 (s.mem.readBytes s.index.toNat (x.val + 1))) _ :=
      s.setRegsFrom_onlyChanges (Memory.length_readBytes _ _ _)
    have completed := State.complete_onlyChanges (s.setRegsFrom 0 (s.mem.readBytes s.index.toNat (x.val + 1)))
      s.nextPc (regsUpTo x) []
    refine ⟨_, withRange_ok (.inr (by omega)), fun r le => ?_, rfl, ?_⟩
    · exact s.setRegsFrom_readBytes_reg s.mem s.index.toNat (Nat.lt_succ_of_le le)
    · exact (loaded.mono fun _ => List.mem_append_left _).trans (completed.mono fun _ => List.mem_append_right _)
  · obtain ⟨outOfRange, -⟩ := wholeRangeIsCheckedBeforeAnyWrite (.load x) s
    exact outOfRange (Nat.le_add_left 1 _) beyond

end Sys2Proof.Proofs
end

section
/-! SUPPORT. The display of spec/44_draw.md as the set of its set pixels: a sprite is a set of bits, it covers a set of
pixels (R172), and drawing is the symmetric difference with that set. -/

namespace Sys2Proof.Machine

open Sys2Proof.Claims
open scoped symmDiff

/-! ## The bits of a sprite and the pixels they cover -/

/-- The set bits of a sprite, as offsets of row and column from its top left pixel; bit 7 is leftmost (R172). -/
def spriteBits (sprite : List Byte) : Set (Nat × Nat) :=
  {b | b.1 < sprite.length ∧ b.2 < 8 ∧ (sprite.getD b.1 0).getLsbD (7 - b.2) = true}

/-- The pixels under the set bits of a sprite at an origin, each coordinate modulo its dimension (R172, decision
D12). -/
def spritePixels (h w row column : Nat) (sprite : List Byte) : Set (Nat × Nat) :=
  (fun b => ((row + b.1) % h, (column + b.2) % w)) '' spriteBits sprite

theorem mem_spriteBits_cons {byte : Byte} {sprite : List Byte} {b : Nat × Nat} :
    b ∈ spriteBits (byte :: sprite) ↔
      (b.1 = 0 ∧ b.2 < 8 ∧ byte.getLsbD (7 - b.2) = true) ∨ ∃ i, b.1 = i + 1 ∧ (i, b.2) ∈ spriteBits sprite := by
  obtain ⟨i, k⟩ := b
  cases i <;> simp [spriteBits]

theorem spriteBits_readBytes (m : Memory) (a n : Nat) :
    spriteBits (m.readBytes a n) = {b | b.1 < n ∧ b.2 < 8 ∧ (m.read (a + b.1)).getLsbD (7 - b.2) = true} := by
  ext b
  simp only [spriteBits, Set.mem_ofPred_eq, Memory.length_readBytes]
  refine and_congr_right fun inside => ?_
  rw [List.getD_eq_getElem _ _ (by simpa using inside), Memory.getElem_readBytes]

theorem finite_spriteBits (sprite : List Byte) : (spriteBits sprite).Finite :=
  ((Set.finite_Iio sprite.length).prod (Set.finite_Iio 8)).subset fun _ ⟨row, column, _⟩ => ⟨row, column⟩

theorem finite_spritePixels (h w row column : Nat) (sprite : List Byte) :
    (spritePixels h w row column sprite).Finite :=
  (finite_spriteBits sprite).image _

/-- Offsets below the dimension stay apart when they wrap. -/
theorem eq_of_add_mod_eq {n a i j : Nat} (e : (a + i) % n = (a + j) % n) (hi : i < n) (hj : j < n) : i = j :=
  (Nat.ModEq.add_left_cancel' a e).eq_of_lt_of_lt hi hj

/-- The bits of a sprite that fits the display lie over different pixels. -/
theorem ncard_spritePixels {h w : Nat} (row column : Nat) {sprite : List Byte} (rows : sprite.length ≤ h)
    (columns : 8 ≤ w) : (spritePixels h w row column sprite).ncard = (spriteBits sprite).ncard := by
  refine Set.InjOn.ncard_image fun a ha b hb e => ?_
  obtain ⟨rowA, columnA, -⟩ := ha
  obtain ⟨rowB, columnB, -⟩ := hb
  obtain ⟨sameRow, sameColumn⟩ := Prod.mk.inj e
  exact Prod.ext (eq_of_add_mod_eq sameRow (by omega) (by omega)) (eq_of_add_mod_eq sameColumn (by omega) (by omega))

theorem spritePixels_mod (h w row column : Nat) (sprite : List Byte) :
    spritePixels h w (row % h) (column % w) sprite = spritePixels h w row column sprite := by
  simp only [spritePixels, Nat.mod_add_mod]

/-! ## Planes -/

section

variable {h w : Nat}

/-- The set pixels of a plane. -/
def Plane.setPixels (p : Plane h w) : Set (Nat × Nat) :=
  {q | ∃ hq : q.1 < h ∧ q.2 < w, p.pixel ⟨q.1, hq.1⟩ ⟨q.2, hq.2⟩ = true}

theorem Plane.mem_setPixels (p : Plane h w) (r : Fin h) (c : Fin w) :
    (r.val, c.val) ∈ p.setPixels ↔ p.pixel r c = true := by
  simp [Plane.setPixels]

/-- Two planes with the same set pixels are the same plane. -/
theorem Plane.eq_of_setPixels {p q : Plane h w} (e : p.setPixels = q.setPixels) : p = q := by
  refine Plane.ext_pixel fun r c => ?_
  rw [Bool.eq_iff_iff, ← Plane.mem_setPixels, e, Plane.mem_setPixels]

variable [NeZero h] [NeZero w]

/-- `coveredFrom` of Laws/Display.lean is membership in the covered pixels. -/
theorem mem_spritePixels {row column : Nat} {sprite : List Byte} (r : Fin h) (c : Fin w) :
    (r.val, c.val) ∈ spritePixels h w row column sprite ↔ coveredFrom h w column r c row sprite = true := by
  induction sprite generalizing row with
  | nil => simp [spritePixels, spriteBits, coveredFrom]
  | cons byte sprite ih =>
    have first : (∃ k < 8, byte.getLsbD (7 - k) = true ∧ row % h = r.val ∧ (column + k) % w = c.val) ↔
        (r == wrapTo h row &&
          (List.range 8).any fun k => byte.getLsbD (7 - k) && c == wrapTo w (column + k)) = true := by
      simp only [Bool.and_eq_true, List.any_eq_true, List.mem_range, beq_iff_eq, Fin.ext_iff, wrapTo_val]
      constructor
      · rintro ⟨k, hk, bit, hr, hc⟩
        exact ⟨hr.symm, k, hk, bit, hc.symm⟩
      · rintro ⟨hr, k, hk, bit, hc⟩
        exact ⟨k, hk, bit, hr.symm, hc.symm⟩
    rw [coveredFrom, Bool.or_eq_true, ← first, ← ih]
    simp only [spritePixels, Set.mem_image, mem_spriteBits_cons, Prod.mk.injEq, Prod.exists]
    constructor
    · rintro ⟨i, k, ⟨rfl, hk, bit⟩ | ⟨j, rfl, bit⟩, hr, hc⟩
      · exact .inl ⟨k, hk, bit, hr, hc⟩
      · exact .inr ⟨j, k, bit, by rw [← hr]; congr 1; omega, hc⟩
    · rintro (⟨k, hk, bit, hr, hc⟩ | ⟨j, k, bit, hr, hc⟩)
      · exact ⟨0, k, .inl ⟨rfl, hk, bit⟩, hr, hc⟩
      · exact ⟨j + 1, k, .inr ⟨j, rfl, bit⟩, by rw [← hr]; congr 1; omega, hc⟩

theorem spritePixels_subset {row column : Nat} {sprite : List Byte} {q : Nat × Nat}
    (covered : q ∈ spritePixels h w row column sprite) : q.1 < h ∧ q.2 < w := by
  obtain ⟨b, -, rfl⟩ := covered
  exact ⟨Nat.mod_lt _ (NeZero.pos h), Nat.mod_lt _ (NeZero.pos w)⟩

/-- Drawing a sprite that fits flips the pixels it covers. -/
theorem Plane.setPixels_drawRows {row column : Nat} {sprite : List Byte} (p : Plane h w) (hit : Bool)
    (rows : sprite.length ≤ h) (columns : 8 ≤ w) :
    (Plane.drawRows column row sprite (p, hit)).1.setPixels = p.setPixels ∆ spritePixels h w row column sprite := by
  obtain ⟨pixels, -⟩ := Plane.drawRows_spec columns column row sprite p hit rows
  ext q
  by_cases inside : q.1 < h ∧ q.2 < w
  · obtain ⟨r, c, rfl⟩ : ∃ (r : Fin h) (c : Fin w), q = (r.val, c.val) := ⟨⟨_, inside.1⟩, ⟨_, inside.2⟩, rfl⟩
    rw [Set.mem_symmDiff, Plane.mem_setPixels, Plane.mem_setPixels, mem_spritePixels, pixels]
    cases p.pixel r c <;> cases coveredFrom h w column r c row sprite <;> simp
  · have old : q ∉ p.setPixels := fun ⟨hq, _⟩ => inside hq
    have new : q ∉ (Plane.drawRows column row sprite (p, hit)).1.setPixels := fun ⟨hq, _⟩ => inside hq
    have uncovered : q ∉ spritePixels h w row column sprite := fun hq => inside (spritePixels_subset hq)
    simp [Set.mem_symmDiff, old, new, uncovered]

/-- It hits exactly if it covers a set pixel. -/
theorem Plane.drawRows_hit_iff {row column : Nat} {sprite : List Byte} (p : Plane h w)
    (rows : sprite.length ≤ h) (columns : 8 ≤ w) :
    (Plane.drawRows column row sprite (p, false)).2 = true ↔
      (p.setPixels ∩ spritePixels h w row column sprite).Nonempty := by
  obtain ⟨-, hits⟩ := Plane.drawRows_spec columns column row sprite p false rows
  rw [hits, or_iff_right Bool.false_ne_true]
  constructor
  · rintro ⟨r, c, set, covered⟩
    exact ⟨(r.val, c.val), (p.mem_setPixels r c).2 set, (mem_spritePixels r c).2 covered⟩
  · rintro ⟨q, ⟨inside, set⟩, covered⟩
    exact ⟨_, _, set, (mem_spritePixels ⟨q.1, inside.1⟩ ⟨q.2, inside.2⟩).1 covered⟩

end

/-! ## Displays -/

theorem Display.inside_of_pixel {d : Display} {r c : Nat} (set : d.pixel r c = true) :
    r < d.height ∧ c < d.width := by
  unfold Display.pixel at set
  split at set <;> split at set
  · assumption
  · contradiction
  · assumption
  · contradiction

theorem Display.mem_setPixels {d : Display} {r c : Nat} : (r, c) ∈ setPixels d ↔ d.pixel r c = true := by
  refine ⟨fun ⟨_, _, set⟩ => set, fun set => ?_⟩
  obtain ⟨row, column⟩ := Display.inside_of_pixel set
  exact ⟨row, column, set⟩

theorem setPixels_standard (p : Plane 32 64) : setPixels (.standard p) = p.setPixels := by
  ext ⟨r, c⟩
  simp [Display.mem_setPixels, Display.pixel, Plane.setPixels]

theorem setPixels_extended (p : Plane 64 128) : setPixels (.extended p) = p.setPixels := by
  ext ⟨r, c⟩
  simp [Display.mem_setPixels, Display.pixel, Plane.setPixels]

theorem finite_setPixels (d : Display) : (setPixels d).Finite :=
  ((Set.finite_Iio d.height).prod (Set.finite_Iio d.width)).subset fun _ ⟨row, column, _⟩ => ⟨row, column⟩

/-- Any sprite of at most 32 rows fits either mode. -/
theorem Display.fits (d : Display) : 32 ≤ d.height ∧ 8 ≤ d.width := by
  cases d <;> simp [Display.height, Display.width]

theorem Display.dimensions_of_mode {d e : Display} (mode : d.mode = e.mode) :
    d.height = e.height ∧ d.width = e.width := by
  cases d <;> cases e
  case standard.standard | extended.extended => exact ⟨rfl, rfl⟩
  all_goals contradiction

/-- Two displays in the same mode with the same set pixels are the same display. -/
theorem Display.eq_of_setPixels {d e : Display} (mode : d.mode = e.mode) (same : setPixels d = setPixels e) :
    d = e := by
  cases d <;> cases e
  case standard.standard p q =>
    rw [setPixels_standard, setPixels_standard] at same
    rw [Plane.eq_of_setPixels same]
  case extended.extended p q =>
    rw [setPixels_extended, setPixels_extended] at same
    rw [Plane.eq_of_setPixels same]
  all_goals contradiction

/-- The pixels that a sprite drawn on the display covers. -/
def Display.covered (d : Display) (row column : Nat) (sprite : List Byte) : Set (Nat × Nat) :=
  spritePixels d.height d.width row column sprite

section

variable (d : Display) (row column : Nat) {sprite : List Byte} (rows : sprite.length ≤ 32)

include rows

/-- Drawing flips the covered pixels (R172). -/
theorem Display.setPixels_draw :
    setPixels (d.draw row column sprite).1 = setPixels d ∆ d.covered row column sprite := by
  cases d with
  | standard p =>
    rw [setPixels_standard]
    exact (setPixels_standard _).trans (p.setPixels_drawRows false rows (by decide))
  | extended p =>
    rw [setPixels_extended]
    exact (setPixels_extended _).trans (p.setPixels_drawRows false (by omega) (by decide))

/-- The collision: a covered pixel was set (R172). -/
theorem Display.draw_hit_iff :
    (d.draw row column sprite).2 = true ↔ (setPixels d ∩ d.covered row column sprite).Nonempty := by
  cases d with
  | standard p => rw [setPixels_standard]; exact p.drawRows_hit_iff rows (by decide)
  | extended p => rw [setPixels_extended]; exact p.drawRows_hit_iff (by omega) (by decide)

theorem Display.ncard_covered : (d.covered row column sprite).ncard = (spriteBits sprite).ncard :=
  ncard_spritePixels row column (rows.trans d.fits.1) d.fits.2

/-- What a draw does depends on the origin through the covered pixels only. -/
theorem Display.draw_congr {row' column' : Nat}
    (same : d.covered row' column' sprite = d.covered row column sprite) :
    d.draw row' column' sprite = d.draw row column sprite := by
  refine Prod.ext (Display.eq_of_setPixels (by simp) ?_) ?_
  · rw [Display.setPixels_draw d _ _ rows, Display.setPixels_draw d _ _ rows, same]
  · rw [Bool.eq_iff_iff, Display.draw_hit_iff d _ _ rows, Display.draw_hit_iff d _ _ rows, same]

end

/-- Of two finite sets, the elements of exactly one and twice those of both are all elements counted in each. -/
theorem ncard_symmDiff_add {α : Type} {A B : Set α} (hA : A.Finite) (hB : B.Finite) :
    (A ∆ B).ncard + 2 * (A ∩ B).ncard = A.ncard + B.ncard := by
  have apart : (A ∆ B).ncard = (A \ B).ncard + (B \ A).ncard :=
    Set.ncard_union_eq disjoint_sdiff_sdiff hA.sdiff hB.sdiff
  have ofA := Set.ncard_inter_add_ncard_sdiff_eq_ncard A B hA
  have ofB := Set.ncard_inter_add_ncard_sdiff_eq_ncard B A hB
  rw [Set.inter_comm] at ofB
  omega

end Sys2Proof.Machine
end

section
/-! SUPPORT. CLS, HIRES and DRW over the sets of spec/44_draw.md. -/

namespace Sys2Proof.Machine

open Sys2Proof.Claims
open scoped symmDiff

/-! ## CLS and HIRES -/

/-- The display replaced, then the next instruction: what CLS and HIRES have in common (R171,
spec/47_extended_and_unsupported.md R201). -/
theorem State.setDisplay_complete_effect (s : State) (d : Display) :
    ((s.setDisplay d).complete s.nextPc [] []).display = d ∧
      ((s.setDisplay d).complete s.nextPc [] []).pc = s.pc + 2#16 ∧
      ((s.setDisplay d).complete s.nextPc [] []).notes = s.notes ++ [.pcChanged (s.pc + 2#16)] ∧
      OnlyChanges s ((s.setDisplay d).complete s.nextPc [] []) [.display, .pc, .notes] :=
  ⟨rfl, rfl, rfl, ((s.setDisplay_onlyChanges d).mono (by simp)).trans
    ((State.complete_onlyChanges _ _ _ _).mono (by simp))⟩

theorem Display.dimensions_extend (d : Display) : d.extend.width = 128 ∧ d.extend.height = 64 := by
  cases d <;> exact ⟨rfl, rfl⟩

theorem Display.pixel_extend_of_standard {d : Display} (standard : d.mode = .standard) (r c : Nat) :
    d.extend.pixel r c = false := by
  cases d with
  | standard => exact Display.pixel_clear (.extended (Plane.blank 64 128)) r c
  | extended => contradiction

theorem Display.extend_of_extended {d : Display} (extended : d.mode = .extended) : d.extend = d := by
  cases d with
  | standard => contradiction
  | extended => rfl

/-! ## DRW -/

theorem flagOf_eq_one_iff (b : Bool) : flagOf b = 0x01#8 ↔ b = true := by cases b <;> decide

theorem flagOf_eq_zero_iff (b : Bool) : flagOf b = 0x00#8 ↔ b = false := by cases b <;> decide

theorem decode_ofNat_drw (x y : Reg) (n : Nibble) :
    decode (BitVec.ofNat 16 (0xD000 + 0x100 * x.val + 0x10 * y.val + n.toNat)) = .drw x y n := by
  have packed : BitVec.ofNat 16 (0xD000 + 0x100 * x.val + 0x10 * y.val + n.toNat) = encode (.drw x y n) :=
    ofNat_packXYN 0xD x y n
  rw [packed, decode_encode rfl]

/-- The pixels under the set bits of the sprite of `DRW Vx,Vy,n`. -/
def State.covered (s : State) (x y : Reg) (n : Nibble) : Set (Nat × Nat) :=
  {q | Covered s x y n.toNat q.1 q.2}

theorem State.mem_covered {s : State} {x y : Reg} {n : Nibble} {r c : Nat} :
    (r, c) ∈ s.covered x y n ↔ Covered s x y n.toNat r c := Iff.rfl

/-- The sprite of a DRW, the `n` bytes at `I`. -/
def State.sprite (s : State) (n : Nibble) : List Byte := s.mem.readBytes s.index.toNat n.toNat

/-- What `DRW Vx,Vy,n` draws: the new buffer and the collision. -/
def State.drawing (s : State) (x y : Reg) (n : Nibble) : Display × Bool :=
  s.display.draw (s.reg y).toNat (s.reg x).toNat (s.sprite n)

theorem exec_drw_of_range {s : State} {n : Nibble} (range : n.toNat = 0 ∨ s.index.toNat + n.toNat - 1 ≤ 0xFFF)
    (x y : Reg) : exec (.drw x y n) s = .next (s.drawn (s.drawing x y n)) :=
  withRange_ok (by omega)

theorem State.spriteBits_sprite (s : State) (n : Nibble) :
    spriteBits (s.sprite n) =
      {b | b.1 < n.toNat ∧ b.2 < 8 ∧ (s.mem.read (s.index.toNat + b.1)).getLsbD (7 - b.2) = true} :=
  spriteBits_readBytes _ _ _

theorem State.sprite_length_le (s : State) (n : Nibble) : (s.sprite n).length ≤ 32 := by
  rw [State.sprite, Memory.length_readBytes]
  omega

theorem State.covered_eq (s : State) (x y : Reg) (n : Nibble) :
    s.covered x y n = s.display.covered (s.reg y).toNat (s.reg x).toNat (s.sprite n) := by
  ext ⟨r, c⟩
  simp only [State.mem_covered, Covered, Display.covered, spritePixels, State.spriteBits_sprite, Set.mem_ofPred_eq,
    Set.mem_image, Prod.exists, Prod.mk.injEq]
  constructor
  · rintro ⟨i, hi, k, hk, bit, hr, hc⟩
    exact ⟨i, k, ⟨hi, hk, bit⟩, hr.symm, hc.symm⟩
  · rintro ⟨i, k, ⟨hi, hk, bit⟩, hr, hc⟩
    exact ⟨i, hi, k, hk, bit, hr.symm, hc.symm⟩

section

variable (s : State) (x y : Reg) (n : Nibble)

theorem State.mode_drawing : (s.drawing x y n).1.mode = s.display.mode := Display.mode_draw _ _ _ _

theorem State.setPixels_drawing : setPixels (s.drawing x y n).1 = setPixels s.display ∆ s.covered x y n := by
  rw [State.covered_eq]
  exact s.display.setPixels_draw _ _ (s.sprite_length_le n)

theorem State.drawing_hit_iff : (s.drawing x y n).2 = true ↔ (setPixels s.display ∩ s.covered x y n).Nonempty := by
  rw [State.covered_eq]
  exact s.display.draw_hit_iff _ _ (s.sprite_length_le n)

/-- A covered pixel is inverted, any other stays (R172). -/
theorem State.drawing_pixel (r c : Nat) :
    (Covered s x y n.toNat r c → (s.drawing x y n).1.pixel r c = !s.display.pixel r c) ∧
      (¬ Covered s x y n.toNat r c → (s.drawing x y n).1.pixel r c = s.display.pixel r c) := by
  have member : (s.drawing x y n).1.pixel r c = true ↔
      s.display.pixel r c = true ∧ ¬ Covered s x y n.toNat r c ∨
        Covered s x y n.toNat r c ∧ ¬ s.display.pixel r c = true := by
    rw [← Display.mem_setPixels, State.setPixels_drawing, Set.mem_symmDiff, Display.mem_setPixels, State.mem_covered]
  refine ⟨fun covered => ?_, fun uncovered => ?_⟩
  · rw [Bool.eq_iff_iff, member]
    simp [covered]
  · rw [Bool.eq_iff_iff, member]
    simp [uncovered]

end

/-- A draw at the same coordinates after `s.drawn q` covers the same pixels: `I`, memory and the mode are kept. -/
theorem State.covered_drawn {s : State} {q : Display × Bool} {x y x' y' : Reg} (n : Nibble)
    (mode : q.1.mode = s.display.mode) (column : (s.drawn q).reg x' = s.reg x) (row : (s.drawn q).reg y' = s.reg y) :
    (s.drawn q).covered x' y' n = s.covered x y n := by
  obtain ⟨height, width⟩ := Display.dimensions_of_mode mode
  rw [State.covered_eq, State.covered_eq, column, row]
  simp [Display.covered, State.sprite, State.drawn, height, width]

end Sys2Proof.Machine
end

section
/-! PROOFS. The statements of spec/44_draw.md. -/

namespace Sys2Proof.Proofs

open Sys2Proof.Machine Sys2Proof.Claims
open scoped symmDiff

/-- Settles O25: the display is replaced by the cleared and by the extended one. -/
theorem clearAndModeSwitch : Obligations.ClearAndModeSwitch := by
  refine ⟨rfl, rfl, fun s => ?_, fun s => ?_⟩
  · obtain ⟨display, pc, notes, frame⟩ := s.setDisplay_complete_effect s.display.clear
    refine ⟨_, rfl, ?_, fun r _ c _ => ?_, pc, pc ▸ notes, frame⟩
    · rw [display, Display.mode_clear]
    · rw [display, Display.pixel_clear]
  · obtain ⟨display, pc, notes, frame⟩ := s.setDisplay_complete_effect s.display.extend
    obtain ⟨width, height⟩ := s.display.dimensions_extend
    refine ⟨_, rfl, ?_, ?_, ?_, fun standard r _ c _ => ?_, fun extended => ?_, pc, pc ▸ notes, frame⟩
    · rw [display, Display.mode_extend]
    · rw [display, width]
    · rw [display, height]
    · rw [display, Display.pixel_extend_of_standard standard]
    · rw [display, Display.extend_of_extended extended]

/-- Settles O26: in range the display becomes its symmetric difference with the covered pixels, the collision is that
the two meet; out of range the instruction only takes the fault. -/
theorem drawFlipsExactlyTheCoveredPixels : Obligations.DrawFlipsExactlyTheCoveredPixels := by
  refine fun x y n => ⟨decode_ofNat_drw x y n, fun s => ⟨fun range => ?_, fun touches beyond => ?_⟩⟩
  · obtain ⟨display, flag, pc, frame, told⟩ := s.drawn_effect (s.drawing x y n)
    obtain ⟨height, width⟩ := Display.dimensions_of_mode (s.mode_drawing x y n)
    have collision : (s.drawing x y n).2 = true ↔ ∃ r c, s.display.pixel r c = true ∧ Covered s x y n.toNat r c := by
      simp only [State.drawing_hit_iff, Set.Nonempty, Prod.exists, Set.mem_inter_iff, Display.mem_setPixels,
        State.mem_covered]
    refine ⟨_, exec_drw_of_range range x y, ?_, fun r _ c _ => ?_, fun hit => ?_, fun miss => ?_, pc, frame, ?_⟩
    · rw [display, State.mode_drawing]
    · rw [display]
      exact s.drawing_pixel x y n r c
    · rw [flag, flagOf_eq_one_iff, collision]
      exact hit
    · rw [flag, flagOf_eq_zero_iff, ← Bool.not_eq_true, collision]
      exact miss
    · rw [display, ← height, ← width]
      exact told
  · obtain ⟨outOfRange, -⟩ := wholeRangeIsCheckedBeforeAnyWrite (.drw x y n) s
    exact outOfRange touches beyond

/-- Settles O27: the symmetric difference with the covered pixels undoes itself. -/
theorem drawingTwiceRestoresTheDisplay : Obligations.DrawingTwiceRestoresTheDisplay := by
  intro x y x' y' n s range
  refine ⟨_, exec_drw_of_range range x y, fun column row => ?_⟩
  obtain ⟨display, -⟩ := s.drawn_effect (s.drawing x y n)
  have covered := State.covered_drawn n (s.mode_drawing x y n) column row
  set t := s.drawn (s.drawing x y n)
  obtain ⟨restored, flag, -⟩ := t.drawn_effect (t.drawing x' y' n)
  refine ⟨_, exec_drw_of_range (s := t) range x' y', ?_, ?_⟩
  · rw [restored]
    refine Display.eq_of_setPixels ?_ ?_
    · rw [State.mode_drawing, display, State.mode_drawing]
    · rw [State.setPixels_drawing, covered, display, State.setPixels_drawing, symmDiff_symmDiff_cancel_right]
  · rw [flag, flagOf_eq_one_iff, State.drawing_hit_iff, covered, Set.inter_comm]
    simp only [Set.Nonempty, Prod.exists, Set.mem_inter_iff, Display.mem_setPixels, State.mem_covered]

/-- Settles O28: no covered pixel is set on a clear display, and the covered pixels are the same for wrapped
coordinates. -/
theorem clearDrawsAndWrappedCoordinates : Obligations.ClearDrawsAndWrappedCoordinates := by
  intro x y x' y' n s range
  obtain ⟨-, flag, -⟩ := s.drawn_effect (s.drawing x y n)
  refine ⟨_, exec_drw_of_range range x y, fun clear => ?_, fun column row => ?_⟩
  · rw [flag, flagOf_eq_zero_iff, ← Bool.not_eq_true, State.drawing_hit_iff, clear, Set.empty_inter]
    exact Set.not_nonempty_empty
  · have same : s.drawing x' y' n = s.drawing x y n := by
      refine s.display.draw_congr _ _ (s.sprite_length_le n) ?_
      rw [row, column]
      exact spritePixels_mod _ _ _ _ _
    rw [exec_drw_of_range range, same]

/-- Settles O29: the count of a symmetric difference, with as many covered pixels as set bits of the sprite. -/
theorem drawCountsPixels : Obligations.DrawCountsPixels := by
  intro x y n s range
  obtain ⟨display, -⟩ := s.drawn_effect (s.drawing x y n)
  refine ⟨_, exec_drw_of_range range x y, ?_⟩
  have bits : (s.covered x y n).ncard = (spriteBits (s.sprite n)).ncard := by
    rw [State.covered_eq]
    exact s.display.ncard_covered _ _ (s.sprite_length_le n)
  have finite : (s.covered x y n).Finite := by
    rw [State.covered_eq]
    exact finite_spritePixels _ _ _ _ _
  rw [display, State.setPixels_drawing, ← State.spriteBits_sprite, ← bits]
  exact ncard_symmDiff_add (finite_setPixels _) finite

end Sys2Proof.Proofs
end

section
/-! SUPPORT. A timer written and the instruction completed: what LD DT,Vx and LD ST,Vx do. -/

namespace Sys2Proof.Machine

theorem State.setDt_onlyChanges (s : State) (b : Byte) : OnlyChanges s (s.setDt b) [.dt] := by
  intro p hp
  cases p with
  | dt => simp at hp
  | _ => rfl

theorem State.setSt_onlyChanges (s : State) (b : Byte) : OnlyChanges s (s.setSt b) [.st] := by
  intro p hp
  cases p with
  | st => simp at hp
  | _ => rfl

/-- What an instruction that wrote no general register adds to the output stream when it completes
(spec/61_host_interface.md R281). -/
theorem State.complete_notes_drop (s : State) (target : Word) (others : List Notification) :
    (s.complete target [] others).notes.drop s.notes.length = others ++ [.pcChanged target] := by
  rw [State.complete_notes, List.drop_left]
  rfl

/-- `DT` written, then the next instruction (R182). -/
theorem State.setDt_complete_effect (s : State) (b : Byte) (others : List Notification) :
    ((s.setDt b).complete s.nextPc [] others).dt = b ∧
      ((s.setDt b).complete s.nextPc [] others).pc = s.pc + 2#16 ∧
      OnlyChanges s ((s.setDt b).complete s.nextPc [] others) [.dt, .pc, .notes] ∧
      ((s.setDt b).complete s.nextPc [] others).notes.drop s.notes.length = others ++ [.pcChanged s.nextPc] :=
  ⟨rfl, rfl, ((s.setDt_onlyChanges b).mono (by simp)).trans ((State.complete_onlyChanges _ _ _ _).mono (by simp)),
    (s.setDt b).complete_notes_drop s.nextPc others⟩

/-- `ST` written, then the next instruction (R183). -/
theorem State.setSt_complete_effect (s : State) (b : Byte) (others : List Notification) :
    ((s.setSt b).complete s.nextPc [] others).st = b ∧
      ((s.setSt b).complete s.nextPc [] others).pc = s.pc + 2#16 ∧
      OnlyChanges s ((s.setSt b).complete s.nextPc [] others) [.st, .pc, .notes] ∧
      ((s.setSt b).complete s.nextPc [] others).notes.drop s.notes.length = others ++ [.pcChanged s.nextPc] :=
  ⟨rfl, rfl, ((s.setSt_onlyChanges b).mono (by simp)).trans ((State.complete_onlyChanges _ _ _ _).mono (by simp)),
    (s.setSt b).complete_notes_drop s.nextPc others⟩

end Sys2Proof.Machine
end

section
/-! PROOFS. The statement of spec/45_timer_instructions.md about the timer instructions. -/

namespace Sys2Proof.Proofs

open Sys2Proof.Machine Sys2Proof.Claims

/-- Settles O30: LD Vx,DT is `loadReg` of `DT`; the two stores write their timer and complete, and what they add to the
output stream is the timer's notification and that of `PC`. -/
theorem timerLoadsAndStores : Obligations.TimerLoadsAndStores := by
  refine fun x => ⟨decode_ofNat_X 0xF 0x07 rfl rfl, decode_ofNat_X 0xF 0x15 rfl rfl, decode_ofNat_X 0xF 0x18 rfl rfl,
    ?_, fun s => ?_, fun s => ?_⟩
  · exact loadsRegister_of_exec (fun s => s.dt) (fun _ => rfl) fun _ => rfl
  · obtain ⟨written, next, frame, told⟩ := s.setDt_complete_effect (s.reg x) [.delayTimerChanged (s.reg x)]
    refine ⟨_, rfl, written, next, frame, ?_⟩
    rw [told]
    exact List.mem_cons_self
  · obtain ⟨written, next, frame, told⟩ := s.setSt_complete_effect (s.reg x) [.soundTimerChanged (s.reg x)]
    refine ⟨_, rfl, written, next, frame, ?_⟩
    rw [told]
    exact ⟨List.mem_cons_self, by simp⟩

end Sys2Proof.Proofs
end

section
/-! SUPPORT. The key a skip tests (spec/46_input.md R190), and the operations of R193, R274 and R275 case by case of
`wait` and of the key's flag. -/

namespace Sys2Proof.Machine

/-! ## The tested key -/

/-- A key number is the tested one exactly when it is the low nibble of the register, so one flag decides the skip. -/
theorem State.keyOf_eq_iff (s : State) (x : Reg) (b : Bool) :
    s.keyOf x = b ↔ ∀ k : Key, k.val = (s.reg x).toNat % 16 → s.key k = b := by
  constructor
  · intro tested k number
    have same : k = lowNibble (s.reg x) := Fin.ext (number.trans (lowNibble_val _).symm)
    rwa [same]
  · intro all
    exact all _ (lowNibble_val _)

variable {s : State} {x : Reg} {k : Key}

/-! ## LD Vx,K -/

theorem exec_ldKey_of_free (free : s.wait = .notWaiting) : exec (.ldKey x) s = .next (s.setWait (.waiting x)) := by
  simp only [exec, execLdKey, free]

theorem exec_ldKey_of_busy (busy : s.wait ≠ .notWaiting) : exec (.ldKey x) s = .next s.resumeWait := by
  cases wait : s.wait with
  | notWaiting => exact absurd wait busy
  | _ => simp only [exec, execLdKey, wait]

theorem instructionStep_of_busy (busy : s.wait ≠ .notWaiting) : instructionStep s = .next s.resumeWait := by
  cases wait : s.wait with
  | notWaiting => exact absurd wait busy
  | _ => simp only [instructionStep, wait]

theorem State.resumeWait_of_waiting (waiting : s.wait = .waiting x) : s.resumeWait = s := by
  simp only [State.resumeWait, waiting]

theorem State.resumeWait_of_latched (latched : s.wait = .keyLatched x k) :
    s.resumeWait = (s.setWait .notWaiting).loadReg x (BitVec.ofNat 8 k.val) := by
  simp only [State.resumeWait, latched]

/-- The delivery of a latched key: its number to `V[x]`, nothing waited for any more, then the next instruction. -/
theorem State.resumeWait_effect (latched : s.wait = .keyLatched x k) :
    (s.resumeWait.reg x).toNat = k.val ∧ s.resumeWait.pc = s.pc + 2#16 ∧ s.resumeWait.wait = .notWaiting ∧
      OnlyChanges s s.resumeWait [.reg x, .pc, .wait, .notes] ∧ Reports s s.resumeWait [x] [] := by
  obtain ⟨written, next, frame, told⟩ := (s.setWait .notWaiting).loadReg_effect x (BitVec.ofNat 8 k.val)
  have fits : (BitVec.ofNat 8 k.val).toNat = k.val := by
    rw [BitVec.toNat_ofNat, Nat.mod_eq_of_lt (by omega)]
  rw [State.resumeWait_of_latched latched]
  exact ⟨by rw [written, fits], next, rfl,
    ((s.setWait_onlyChanges _).mono (by simp)).trans (frame.mono (by simp)), told⟩

/-! ## The key requests -/

theorem request_keyDown (live : s.ctrl ≠ .stopped) (k : Key) : request (.keyDown k) s = .next (s.keyDown k) :=
  request_live live _

theorem request_keyUp (live : s.ctrl ≠ .stopped) (k : Key) : request (.keyUp k) s = .next (s.keyUp k) :=
  request_live live _

theorem State.keyDown_of_down (down : s.key k = true) : s.keyDown k = s := if_pos down

theorem State.keyDown_of_up_waiting (up : s.key k = false) (waiting : s.wait = .waiting x) :
    s.keyDown k = (s.setWait (.keyLatched x k)).setKey k true := by
  simp [State.keyDown, up, waiting]

theorem State.keyDown_of_up_not_waiting (up : s.key k = false) (other : ∀ x, s.wait ≠ .waiting x) :
    s.keyDown k = s.setKey k true := by
  cases wait : s.wait with
  | waiting x => exact absurd wait (other x)
  | _ => simp [State.keyDown, up, wait]

/-- After a key-down the key's flag is set, transition or not. -/
theorem State.keyDown_key (s : State) (k : Key) : (s.keyDown k).key k = true := by
  cases flag : s.key k with
  | true => rwa [State.keyDown_of_down flag]
  | false =>
    by_cases waiting : ∃ x, s.wait = .waiting x
    · obtain ⟨x, waiting⟩ := waiting
      simp [State.keyDown_of_up_waiting flag waiting]
    · simp [State.keyDown_of_up_not_waiting flag (not_exists.1 waiting)]

/-- Only a parked LD Vx,K takes notice of a key-down. -/
theorem State.keyDown_wait (other : ∀ x, s.wait ≠ .waiting x) (k : Key) : (s.keyDown k).wait = s.wait := by
  cases flag : s.key k with
  | true => rw [State.keyDown_of_down flag]
  | false => rw [State.keyDown_of_up_not_waiting flag other, State.setKey_wait]

end Sys2Proof.Machine
end

section
/-! PROOFS. The statements of spec/46_input.md. -/

namespace Sys2Proof.Proofs

open Sys2Proof.Machine Sys2Proof.Claims

/-- Settles O33: the two meanings are `skipIf` of the tested key's flag and of its negation. -/
theorem keySkipsTestTheLowNibbleKey : Obligations.KeySkipsTestTheLowNibbleKey := by
  refine fun x => ⟨decode_ofNat_X 0xE 0x9E rfl rfl, decode_ofNat_X 0xE 0xA1 rfl rfl, ?_, ?_⟩
  · exact skipsWhen_of_exec (fun s => s.keyOf x) (fun _ => rfl) fun s => s.keyOf_eq_iff x true
  · exact skipsWhen_of_exec (fun s => !s.keyOf x) (fun _ => rfl)
      fun s => (Bool.not_eq_true' _).to_iff.trans (s.keyOf_eq_iff x false)

/-- Settles O34, by `wait`: free it parks, parked an instruction step does nothing and a key-down that is a transition
latches, latched an instruction step delivers; the other events leave `wait` alone (decision D13). -/
theorem waitForKeyParksLatchesAndDelivers : Obligations.WaitForKeyParksLatchesAndDelivers := by
  refine fun x => ⟨decode_ofNat_X 0xF 0x0A rfl rfl, fun s free => ?parks, fun s waiting => ?parked,
    fun s k live waiting up => ?latches, fun s k latched => ?delivers, fun s k live _ down => ?held,
    fun s k live => ?keyUp, fun s j k live latched => ?secondKey⟩
  case parks => exact ⟨_, exec_ldKey_of_free free, rfl, s.setWait_onlyChanges _⟩
  case parked =>
    have busy : s.wait ≠ .notWaiting := by simp [waiting]
    rw [instructionStep_of_busy busy, exec_ldKey_of_busy busy, State.resumeWait_of_waiting waiting]
    exact ⟨rfl, rfl⟩
  case latches =>
    refine ⟨_, request_keyDown live k, s.keyDown_key k, ?_, s.keyDown_onlyChanges k⟩
    rw [State.keyDown_of_up_waiting up waiting]
    rfl
  case delivers =>
    have busy : s.wait ≠ .notWaiting := by simp [latched]
    exact ⟨_, instructionStep_of_busy busy, exec_ldKey_of_busy busy, State.resumeWait_effect latched⟩
  case held => rw [request_keyDown live, State.keyDown_of_down down]
  case keyUp => exact ⟨_, request_keyUp live k, rfl⟩
  case secondKey =>
    refine ⟨_, request_keyDown live k, s.keyDown_key k, ?_⟩
    rw [State.keyDown_wait (by simp [latched]), latched]

end Sys2Proof.Proofs
end

section
/-! PROOFS. The statement of spec/47_extended_and_unsupported.md R202. -/

namespace Sys2Proof.Proofs

open Sys2Proof.Machine Sys2Proof.Claims

/-- Settles O35: a word on no row of the map decodes to `unsupported`, whose meaning is `raise` with the word. -/
theorem unsupportedWordsTakeTheirFault : Obligations.UnsupportedWordsTakeTheirFault :=
  fun w => ⟨decode_eq_unsupported_of_no_row, fun s => ⟨_, rfl, raise_takesFault s .unsupportedOpcode w.toNat⟩⟩

/-- The premise of O35 is met: `5AB1` (spec/95_test_vectors.md) lies on no row of the map. -/
theorem witness_unmatchedWord : ∀ row ∈ opcodeMap, 0x5AB1#16 &&& row.1 ≠ row.2 :=
  no_row_of_decode_eq_unsupported rfl

end Sys2Proof.Proofs
end

section
/-! SUPPORT. The linear sweep of spec/50_disassembler.md, record by record from any buffer offset. -/

namespace Sys2Proof.Machine

/-- Every two bytes give a record, a last odd byte none (R211). -/
theorem length_sweepFrom (offset : Nat) (image : List Byte) : (sweepFrom offset image).length = image.length / 2 := by
  induction offset, image using sweepFrom.induct with
  | case1 offset hi lo rest ih =>
    rw [sweepFrom, List.length_cons, ih]
    simp only [List.length_cons]
    omega
  | case2 image _ short =>
    match image with
    | [] | [_] => simp [sweepFrom]
    | hi :: lo :: rest => exact absurd rfl (short hi lo rest)

/-- Record `i` of a sweep from an offset: its address, and the two bytes it decodes (R212). -/
theorem sweepFrom_getElem? {offset i : Nat} {image : List Byte} {r : Record}
    (h : (sweepFrom offset image)[i]? = some r) :
    r.address = Config.progBase + offset + 2 * i ∧
      ∃ hi lo, image[2 * i]? = some hi ∧ image[2 * i + 1]? = some lo ∧ r.instr = decode (wordOf hi lo) := by
  induction offset, image using sweepFrom.induct generalizing i with
  | case1 offset hi lo rest ih =>
    rw [sweepFrom] at h
    cases i with
    | zero =>
      obtain rfl : _ = r := Option.some.inj h
      exact ⟨rfl, hi, lo, rfl, rfl, rfl⟩
    | succ i =>
      obtain ⟨address, bytes⟩ := ih h
      exact ⟨by omega, bytes⟩
  | case2 image _ short =>
    match image with
    | [] | [_] => cases h
    | hi :: lo :: rest => exact absurd rfl (short hi lo rest)

end Sys2Proof.Machine
end

section
/-! PROOFS. The statements of spec/50_disassembler.md. -/

namespace Sys2Proof.Proofs

open Sys2Proof.Machine Sys2Proof.Claims

/-- Settles O56: the listing is the sweep from offset 0, and a word is the number of its two bytes. -/
theorem listingIsALinearSweep : Obligations.ListingIsALinearSweep := by
  refine fun image => ⟨length_sweepFrom 0 image, fun i r h => ?_⟩
  obtain ⟨address, hi, lo, first, second, decoded⟩ := sweepFrom_getElem? h
  exact ⟨address, hi, lo, first, second, by rw [decoded, wordOf_eq_ofNat]⟩

/-- Settles O57, by evaluating the sweep and the texts on the four bytes. -/
theorem sourceListingExample : Obligations.SourceListingExample := by
  unfold Obligations.SourceListingExample
  decide

end Sys2Proof.Proofs
end

section
/-! SUPPORT. The tick of spec/60_exceptions.md R245 line by line: the timers it leaves and what it adds to the output
stream. -/

namespace Sys2Proof.Machine

open Sys2Proof.Claims

/-- A nonzero byte counts down without a borrow. -/
theorem byte_pred_toNat {b : Byte} (nonzero : b ≠ 0x00#8) : (b - 1#8).toNat = b.toNat - 1 :=
  BitVec.toNat_sub_of_le (BitVec.le_def.2 (BitVec.toNat_pos_of_ne_zero nonzero))

section

variable (s : State)

theorem State.tickDelay_dt : s.tickDelay.dt.toNat = s.dt.toNat - 1 := by
  unfold State.tickDelay
  split
  · rename_i zero
    simp [zero]
  · rename_i nonzero
    exact byte_pred_toNat nonzero

theorem State.tickDelay_notes :
    s.tickDelay.notes = s.notes ++ if s.dt = 0x00#8 then [] else [.delayTimerChanged s.tickDelay.dt] := by
  unfold State.tickDelay
  split <;> simp

theorem State.tickDelay_st : s.tickDelay.st = s.st := s.tickDelay_onlyChanges .st (by simp)

theorem State.tickSound_st : s.tickSound.st.toNat = s.st.toNat - 1 := by
  unfold State.tickSound
  split
  · rename_i zero
    simp [zero]
  · rename_i nonzero
    exact byte_pred_toNat nonzero

theorem State.tickSound_notes :
    s.tickSound.notes = s.notes ++ if s.st = 0x00#8 then [] else [.playSound, .soundTimerChanged s.tickSound.st] := by
  unfold State.tickSound
  split <;> simp

theorem State.tickSound_dt : s.tickSound.dt = s.dt := s.tickSound_onlyChanges .dt (by simp)

end

variable {s : State}

theorem tick_dt (live : s.ctrl ≠ .stopped) : (tick s).dt.toNat = s.dt.toNat - 1 := by
  rw [tick_live live, State.tickSound_dt, State.tickDelay_dt]

theorem tick_st (live : s.ctrl ≠ .stopped) : (tick s).st.toNat = s.st.toNat - 1 := by
  rw [tick_live live, State.tickSound_st, State.tickDelay_st]

theorem tick_notes (live : s.ctrl ≠ .stopped) :
    (tick s).notes = s.notes ++ (if s.dt = 0x00#8 then [] else [.delayTimerChanged (tick s).dt]) ++
      (if s.st = 0x00#8 then [] else [.playSound, .soundTimerChanged (tick s).st]) := by
  rw [tick_live live, State.tickSound_notes, State.tickSound_dt, State.tickDelay_notes, State.tickDelay_st]

theorem tick_ctrl (s : State) : (tick s).ctrl = s.ctrl := tick_onlyChanges s .ctrl (by simp)

/-- A tick appends to the output stream, and sounds at most once (decision D17). -/
theorem tick_told (live : s.ctrl ≠ .stopped) :
    ∃ told, (tick s).notes = s.notes ++ told ∧ told.count .playSound = min s.st.toNat 1 := by
  refine ⟨_, (tick_notes live).trans (List.append_assoc _ _ _), ?_⟩
  have silentDelay : (if s.dt = 0x00#8 then [] else [.delayTimerChanged (tick s).dt] : List Notification).count
      .playSound = 0 := by
    split <;> rfl
  rw [List.count_append, silentDelay]
  split
  · rename_i zero
    simp [zero]
  · rename_i nonzero
    have positive := BitVec.toNat_pos_of_ne_zero nonzero
    have once : ([.playSound, .soundTimerChanged (tick s).st] : List Notification).count .playSound = 1 := rfl
    omega

theorem ticks_onlyChanges (n : Nat) (s : State) : OnlyChanges s (ticks n s) [.dt, .st, .notes] := by
  induction n generalizing s with
  | zero => exact .refl s _
  | succ n ih => exact (tick_onlyChanges s).trans (ih (tick s))

theorem ticks_dt (n : Nat) (live : s.ctrl ≠ .stopped) : (ticks n s).dt.toNat = s.dt.toNat - n := by
  induction n generalizing s with
  | zero => rfl
  | succ n ih =>
    rw [ticks, ih (tick_ctrl s ▸ live), tick_dt live]
    omega

theorem ticks_st (n : Nat) (live : s.ctrl ≠ .stopped) : (ticks n s).st.toNat = s.st.toNat - n := by
  induction n generalizing s with
  | zero => rfl
  | succ n ih =>
    rw [ticks, ih (tick_ctrl s ▸ live), tick_st live]
    omega

/-- What `n` ticks append to the output stream sounds once for each tick that found `ST` nonzero. -/
theorem ticks_told (n : Nat) (live : s.ctrl ≠ .stopped) :
    ∃ told, (ticks n s).notes = s.notes ++ told ∧ told.count .playSound = min s.st.toNat n := by
  induction n generalizing s with
  | zero => exact ⟨[], (List.append_nil _).symm, (Nat.min_zero _).symm⟩
  | succ n ih =>
    obtain ⟨first, notes, sounds⟩ := tick_told live
    obtain ⟨later, notes', sounds'⟩ := ih (s := tick s) (tick_ctrl s ▸ live)
    refine ⟨first ++ later, by rw [ticks, notes', notes, List.append_assoc], ?_⟩
    rw [List.count_append, sounds, sounds', tick_st live]
    omega

end Sys2Proof.Machine
end

section
/-! SUPPORT. What an instruction step and a step of the machine answer, and which meaning they run
(spec/60_exceptions.md R241, R247, R248). -/

namespace Sys2Proof.Machine

variable {s : State}

/-! ## The fetch of an instruction step -/

theorem instructionStep_of_fetch_error {kind : FaultKind} {info : Nat} (free : s.wait = .notWaiting)
    (fault : fetch s = .error (kind, info)) : instructionStep s = .next (s.raise kind info) := by
  simp only [instructionStep, free, fault]

theorem instructionStep_of_fetchable {i : Instr} (free : s.wait = .notWaiting) (fetchable : Fetchable s.pc)
    (decoded : decode (s.mem.word s.pc.toNat) = i) : instructionStep s = exec i s := by
  simp only [instructionStep, free, fetch_ok fetchable, decoded]

/-- The first two bytes decode as the word they make (R52). -/
theorem decode_of_decodeBytes {hi lo : Byte} {rest rest' : List Byte} {i : Instr}
    (h : decodeBytes (hi :: lo :: rest) = .ok (i, rest')) : decode (wordOf hi lo) = i := by
  cases h
  rfl

/-! ## Faults and answers -/

/-- An instruction step keeps the record of a fault or takes one (R239). -/
theorem instructionStep_err {t : State} (h : instructionStep s = .next t) :
    t.err = s.err ∨ ∃ kind info, t = s.raise kind info := by
  rcases instructionStep_cases s with
    ⟨x, -, e⟩ | ⟨x, k, -, e⟩ | ⟨-, -, e⟩ | ⟨-, -, -, e⟩ | ⟨-, -, e⟩ <;> rw [e] at h
  · cases h; exact .inl rfl
  · cases h; exact .inl rfl
  · cases h; exact .inr ⟨_, _, rfl⟩
  · cases h; exact .inr ⟨_, _, rfl⟩
  · exact (exec_err h).imp_right fun ⟨kind, info, raised, _⟩ => ⟨kind, info, raised⟩

theorem instructionStep_total (s : State) : ∃ t, instructionStep s = .next t := by
  rcases instructionStep_cases s with
    ⟨x, -, e⟩ | ⟨x, k, -, e⟩ | ⟨-, -, e⟩ | ⟨-, -, -, e⟩ | ⟨-, -, e⟩ <;> rw [e]
  · exact ⟨_, rfl⟩
  · exact ⟨_, rfl⟩
  · exact ⟨_, rfl⟩
  · exact ⟨_, rfl⟩
  · exact exec_total _ s

theorem instructionClock_total (s : State) : ∃ t, instructionClock s = .next t := by
  by_cases running : s.ctrl = .running
  · rw [instructionClock_running running]
    exact instructionStep_total s
  · exact ⟨s, instructionClock_idle running⟩

/-- A single-step request is the instruction step in `Paused`, and nothing elsewhere (R241). -/
theorem request_singleStep (s : State) :
    request .singleStep s = if s.ctrl = .paused then instructionStep s else .next s := by
  cases ctrl : s.ctrl with
  | running => simp [request, liveRequest, ctrl]
  | paused => simp [request, liveRequest, ctrl]
  | stopped => simp [request, stoppedRequest, ctrl]

theorem request_total (r : Request) (s : State) : ∃ t, request r s = .next t := by
  by_cases stopped : s.ctrl = .stopped
  · exact ⟨_, request_stopped stopped r⟩
  · cases r with
    | singleStep =>
      rw [request_singleStep]
      split
      · exact instructionStep_total s
      · exact ⟨s, rfl⟩
    | _ => exact ⟨_, request_live stopped _⟩

theorem agentStep_total (a : AgentStep) (s : State) : ∃ t, agentStep a s = .next t := by
  cases a with
  | instruction => exact instructionClock_total s
  | tick => exact ⟨_, rfl⟩
  | host r => exact request_total r s

theorem State.setAgenda_onlyChanges (s : State) (a : List AgentStep) : OnlyChanges s (s.setAgenda a) [.agenda] := by
  intro p hp
  cases p with
  | agenda => simp at hp
  | _ => rfl

end Sys2Proof.Machine
end

section
/-! PROOFS. The statements of spec/60_exceptions.md about ticks, faults and steps. -/

namespace Sys2Proof.Proofs

open Sys2Proof.Machine Sys2Proof.Claims

/-- Settles O31, by the two lines of a tick. -/
theorem tickCountsDownAndSounds : Obligations.TickCountsDownAndSounds :=
  fun s => ⟨fun live => ⟨tick_dt live, tick_st live, tick_onlyChanges s, tick_notes live⟩, tick_stopped⟩

/-- Settles O32, by induction on the number of ticks. -/
theorem ticksObeyTheCountingLaw : Obligations.TicksObeyTheCountingLaw := by
  intro n s live
  obtain ⟨told, notes, sounds⟩ := ticks_told n live
  exact ⟨ticks_dt n live, ticks_st n live, by rw [notes, List.drop_left, sounds], ticks_onlyChanges n s⟩

/-- Settles O37: an instruction step keeps the record of a fault or is `raise`. -/
theorem faultingStepWritesNothingElse : Obligations.FaultingStepWritesNothingElse := by
  intro s t h unrecorded recorded
  obtain same | ⟨kind, info, rfl⟩ := instructionStep_err h
  · exact absurd (same.trans unrecorded) recorded
  · exact ⟨kind, info, raise_takesFault s kind info⟩

/-- Settles O48: in `Stopped` the step only takes its entry off the schedule. -/
theorem stoppedIsTerminalUntilReset : Obligations.StoppedIsTerminalUntilReset := by
  intro s t stopped noReset h
  rw [step_eq_of_stopped stopped noReset h]
  exact s.setAgenda_onlyChanges _

/-- Settles O36: the fetch checks the alignment, then the bound. -/
theorem fetchFaultsInOrder : Obligations.FetchFaultsInOrder :=
  fun s free =>
    ⟨fun odd => ⟨_, instructionStep_of_fetch_error free (fetch_odd odd), raise_takesFault s _ _⟩,
      fun even high => ⟨_, instructionStep_of_fetch_error free (fetch_high even high), raise_takesFault s _ _⟩⟩

/-- Settles O38: the step is that of the agent at the head of the schedule, and an instruction step at a fetchable
`PC` is `exec` of the word there. The entry taken off is not read by any of them. -/
theorem stepRunsTheDecodedInstruction : Obligations.StepRunsTheDecodedInstruction := by
  refine ⟨fun s i free even bound bytes => ?decoded, fun s running => ?running, fun s paused => ?paused,
    fun s rest next => step_agent next, fun s r rest next => step_agent next⟩
  case decoded =>
    have runs (rest : List AgentStep) : instructionStep (s.setAgenda rest) = exec i (s.setAgenda rest) :=
      instructionStep_of_fetchable free ⟨even, bound⟩ (decode_of_decodeBytes bytes)
    refine ⟨fun running idle => ?_, fun rest running next => ?_, fun rest paused next => ?_⟩
    · rw [step_empty idle, instructionClock_running running]
      exact runs s.agenda
    · rw [step_agent next]
      exact (instructionClock_running (s := s.setAgenda rest) running).trans (runs rest)
    · rw [step_agent next]
      exact ((request_singleStep (s.setAgenda rest)).trans (if_pos paused)).trans (runs rest)
  case running =>
    refine ⟨fun idle => ?_, fun rest next => ?_⟩
    · rw [step_empty idle, instructionClock_running running]
    · rw [step_agent next]
      exact instructionClock_running running
  case paused =>
    have disabled : s.ctrl ≠ .running := by simp [paused]
    refine ⟨fun idle => ?_, fun rest next => ?_⟩
    · rw [step_empty idle, instructionClock_idle disabled]
    · rw [step_agent next]
      exact instructionClock_idle disabled

/-- Settles O39: every agent's step answers a next state. -/
theorem stepAlwaysAnswersANextState : Obligations.StepAlwaysAnswersANextState := by
  intro s
  rw [step_eq_agentStep]
  exact agentStep_total _ _

end Sys2Proof.Proofs
end

section
/-! SUPPORT. The operations behind the host's controller requests and the mode switch, by `ctrl` and mode
(spec/60_exceptions.md R241, R242, spec/61_host_interface.md R272 to R277). -/

namespace Sys2Proof.Machine

open Sys2Proof.Claims

variable {s : State}

theorem State.pause_of_running (running : s.ctrl = .running) :
    s.pause true = (s.setCtrl .paused).emit [.changedToPaused] ∧ s.pause false = s := by
  simp [State.pause, running]

theorem State.pause_of_paused (paused : s.ctrl = .paused) :
    s.pause false = (s.setCtrl .running).emit [.changedToRunning] ∧ s.pause true = s := by
  simp [State.pause, paused]

theorem request_pause (live : s.ctrl ≠ .stopped) (flag : Bool) : request (.pause flag) s = .next (s.pause flag) :=
  request_live live _

/-- The buffer of the extended mode is clear when the mode was Standard (decision D14). -/
theorem setPixels_extend_of_standard {d : Display} (standard : d.mode = .standard) : setPixels d.extend = ∅ := by
  simp [setPixels, Display.pixel_extend_of_standard standard]

end Sys2Proof.Machine
end

section
/-! SUPPORT. What a completed instruction reports (spec/61_host_interface.md R281), and the registers written in
ascending order. -/

namespace Sys2Proof.Machine

open Sys2Proof.Claims

/-- The registers an instruction writes, ascending and each once. -/
def ascendingWrites (i : Instr) : List Reg := (List.finRange 16).filter fun r => r ∈ registersWritten i

theorem ascendingWrites_of_none {i : Instr} (h : registersWritten i = []) : ascendingWrites i = [] := by
  simp [ascendingWrites, h]

theorem ascendingWrites_of_one {i : Instr} {x : Reg} (h : registersWritten i = [x]) : ascendingWrites i = [x] := by
  rw [ascendingWrites, h]
  clear h
  revert x
  decide

theorem ascendingWrites_of_flag {i : Instr} {x : Reg} (h : registersWritten i = [x, 15]) :
    ascendingWrites i = if x = 15 then [15] else [x, 15] := by
  rw [ascendingWrites, h]
  clear h
  revert x
  decide

theorem ascendingWrites_load (x : Reg) : ascendingWrites (.load x) = regsUpTo x := by
  revert x
  decide

/-- An instruction that has appended nothing before its completion reports what it completes with. -/
theorem State.complete_reports {i : Instr} {s u : State} {target : Word} {regs : List Reg}
    {others : List Notification} (silent : u.notes = s.notes) (writes : ascendingWrites i = regs)
    (told : otherReports i (u.complete target regs others) = others) :
    Reports s (u.complete target regs others) (ascendingWrites i)
      (otherReports i (u.complete target regs others)) := by
  rw [writes, told, Reports, State.complete_notes, silent]
  rfl

/-- Every outcome but a fault and a parking LD Vx,K reports what it wrote. -/
theorem Effect.reports {i : Instr} {s t : State} (e : Effect s i t) (free : s.wait = .notWaiting) :
    (∃ kind info, TakesFault s t kind info) ∨ (∃ x, i = .ldKey x ∧ t.notes = s.notes) ∨
      Reports s t (ascendingWrites i) (otherReports i t) := by
  cases e with
  | fault _ kind info => exact .inl ⟨kind, info, raise_takesFault s kind info⟩
  | park x => exact .inr (.inl ⟨x, rfl, rfl⟩)
  | resume x busy => exact absurd free busy
  | reg _ x b hi told => exact .inr (.inr (State.complete_reports rfl (ascendingWrites_of_one hi) (told _)))
  | regFlag _ x result flag hi told =>
    exact .inr (.inr (State.complete_reports rfl (ascendingWrites_of_flag hi) (told _)))
  | skip _ taken hi told => exact .inr (.inr (State.complete_reports rfl (ascendingWrites_of_none hi) (told _)))
  | jump _ target ht hi told =>
    exact .inr (.inr (State.complete_reports rfl (ascendingWrites_of_none hi) (told _)))
  | index _ a hi =>
    refine .inr (.inr ?_)
    obtain ⟨nnn, rfl⟩ | ⟨x, rfl⟩ | ⟨x, rfl⟩ := hi
    · exact State.complete_reports rfl (ascendingWrites_of_none rfl) rfl
    · exact State.complete_reports rfl (ascendingWrites_of_none rfl) rfl
    · exact State.complete_reports rfl (ascendingWrites_of_none rfl) rfl
  | store _ bs hi =>
    refine .inr (.inr ?_)
    obtain ⟨x, rfl | rfl⟩ := hi
    · exact State.complete_reports rfl (ascendingWrites_of_none rfl) rfl
    · exact State.complete_reports rfl (ascendingWrites_of_none rfl) rfl
  | load x =>
    exact .inr (.inr (State.complete_reports (State.setRegsFrom_notes s _ _) (ascendingWrites_load x) rfl))
  | random | draw => exact .inr (.inr (State.complete_reports rfl (ascendingWrites_of_one rfl) rfl))
  | call | ret | delay | sound | clear | extend =>
    exact .inr (.inr (State.complete_reports rfl (ascendingWrites_of_none rfl) rfl))

end Sys2Proof.Machine
end

section
/-! PROOFS. The statements of spec/61_host_interface.md. -/

namespace Sys2Proof.Proofs

open Sys2Proof.Machine Sys2Proof.Claims

/-- Settles O45, request by request: each is one operation on `ctrl` or on the delay, with its frame. -/
theorem controllerRequests : Obligations.ControllerRequests := by
  refine fun s => ⟨fun running => ?pause, fun paused => ?resume, fun running => ?stillRunning,
    fun paused => ?stillPaused, fun paused => ?singleStep, fun running => ?noSingleStep, fun live => ?stop,
    fun ms live => ?delay⟩
  case pause =>
    obtain ⟨paused, -⟩ := State.pause_of_running running
    refine ⟨_, request_pause (by simp [running]) true, ?_, ?_, s.pause_onlyChanges true⟩ <;> rw [paused] <;> rfl
  case resume =>
    obtain ⟨resumed, -⟩ := State.pause_of_paused paused
    refine ⟨_, request_pause (by simp [paused]) false, ?_, ?_, s.pause_onlyChanges false⟩ <;> rw [resumed] <;> rfl
  case stillRunning =>
    obtain ⟨-, same⟩ := State.pause_of_running running
    rw [request_pause (by simp [running]), same]
  case stillPaused =>
    obtain ⟨-, same⟩ := State.pause_of_paused paused
    rw [request_pause (by simp [paused]), same]
  case singleStep => rw [request_singleStep, if_pos paused]
  case noSingleStep => rw [request_singleStep, if_neg (by simp [running])]
  case stop => exact ⟨_, request_live live _, rfl, rfl, s.stop_onlyChanges⟩
  case delay => exact ⟨_, request_live live _, rfl, s.setInstrDelay_onlyChanges ms⟩

/-- Settles O46, by the key's flag and `wait`. -/
theorem keyRequestsSetFlagsAndLatch : Obligations.KeyRequestsSetFlagsAndLatch := by
  refine fun s k live => ⟨?keyUp, fun down => ?held, fun up => ?keyDown⟩
  case keyUp => exact ⟨_, request_keyUp live k, by simp [State.keyUp], s.setKey_onlyChanges k false⟩
  case held => rw [request_keyDown live, State.keyDown_of_down down]
  case keyDown =>
    refine ⟨_, request_keyDown live k, s.keyDown_key k, fun x waiting => ?_, fun other => State.keyDown_wait other k,
      s.keyDown_onlyChanges k⟩
    rw [State.keyDown_of_up_waiting up waiting]
    rfl

/-- Settles O47: the display becomes the extended one, as HIRES has it, and nothing else is written. -/
theorem enableExtendedSwitchesTheMode : Obligations.EnableExtendedSwitchesTheMode :=
  fun s live => ⟨_, request_live live _, s.display.mode_extend, setPixels_extend_of_standard,
    Display.extend_of_extended, s.setDisplay_onlyChanges _⟩

/-- Settles O55, by the outcomes of an instruction. -/
theorem instructionsReportWhatTheyWrite : Obligations.InstructionsReportWhatTheyWrite :=
  fun _ _ _ free h => (exec_effect h).reports free

end Sys2Proof.Proofs
end

section
/-! SUPPORT. The state a reset request builds, before and after the program is loaded (spec/70_reset_and_hazards.md
R300 to R304). -/

namespace Sys2Proof.Machine

/-- Reset as a request in state `s` reaches it, before a program is loaded: the output stream, with the end of the old
run, and what is no machine state go on (logs 2, 4, 5, 6). -/
def State.emptyRun (s : State) : State :=
  { State.reset with
    notes := s.notes ++ if s.ctrl = .stopped then [] else [.stopped]
    agenda := s.agenda, draws := s.draws, instrDelayMs := s.instrDelayMs }

/-- A reset request is answered whatever `ctrl` is (R241, R278). -/
theorem request_reset (image : List Byte) (s : State) :
    request (.reset image) s = .next (loadProgram image s.emptyRun) := by
  have run : newRun image s = loadProgram image s.emptyRun :=
    (newRun_eq image s).trans (congrArg (loadProgram image) (loadFontSet_reset s.emptyRun rfl))
  rw [← run]
  by_cases stopped : s.ctrl = .stopped
  · exact request_stopped stopped _
  · exact request_live stopped _

theorem loadProgram_of_fits {image : List Byte} (fits : image.length ≤ 3584) (s : State) :
    loadProgram image s = s.setMem (s.mem.writeBytes 0x200 image) :=
  if_neg (Nat.not_lt.2 fits)

theorem loadProgram_of_tooLong {image : List Byte} (tooLong : 3584 < image.length) (s : State) :
    loadProgram image s = ((s.setErr { kind := .programTooLarge, info := image.length, pc := none }).setCtrl
      .stopped).emit [.error { kind := .programTooLarge, info := image.length, pc := none }, .stopped] :=
  if_pos tooLong

section

variable {a : Nat}

theorem reset_read_font (low : a < 80) : State.reset.mem.read a = fontTable.getD a 0 :=
  (Memory.unlisted_eq a).trans (if_pos low)

theorem reset_read_zero (high : 80 ≤ a) : State.reset.mem.read a = 0x00#8 :=
  (Memory.unlisted_eq a).trans (if_neg (Nat.not_lt.2 high))

theorem Memory.read_writeBytes_inside (m : Memory) {base j : Nat} {bs : List Byte} (h : j < bs.length) :
    (m.writeBytes base bs).read (base + j) = bs[j] := by
  rw [Memory.read_writeBytes, dif_pos (by omega)]
  congr 1
  omega

theorem Memory.read_writeBytes_outside (m : Memory) {base : Nat} {bs : List Byte}
    (h : a < base ∨ base + bs.length ≤ a) : (m.writeBytes base bs).read a = m.read a := by
  rw [Memory.read_writeBytes, dif_neg (by omega)]

end

end Sys2Proof.Machine
end

section
/-! PROOFS. The statements about reset and boot, of spec/70_reset_and_hazards.md and spec/60_exceptions.md R234. -/

namespace Sys2Proof.Proofs

open Sys2Proof.Machine Sys2Proof.Claims

/-- Settles O41: every part of the invariant holds at reset. -/
theorem resetMeetsTheInvariant : Obligations.ResetMeetsTheInvariant := State.reset_inv

/-- Settles O42: the fields are those of reset, and over reset's memory the image is written from 0x200. -/
theorem resetBuildsTheStartState : Obligations.ResetBuildsTheStartState := by
  intro image s fits
  obtain ⟨regs, index, pc, stack, dt, st, mode, blank, keys, wait, err, ctrl, -⟩ := resetStateHasTheStatedValues
  refine ⟨_, request_reset image s, ?_⟩
  rw [loadProgram_of_fits fits]
  refine ⟨regs, index, pc, stack, dt, st, mode, blank, keys, wait, err, ctrl, fun a low => ?font,
    fun a high below => ?gap, fun j inside => ?image, fun a above _ => ?rest, rfl, rfl, rfl, rfl⟩
  case font => exact (Memory.read_writeBytes_outside _ (.inl (by omega))).trans (reset_read_font low)
  case gap => exact (Memory.read_writeBytes_outside _ (.inl below)).trans (reset_read_zero high)
  case image => exact Memory.read_writeBytes_inside _ inside
  case rest => exact (Memory.read_writeBytes_outside _ (.inr above)).trans (reset_read_zero (by omega))

/-- Settles O43: the fault is recorded over the state of a run without a program, whose memory is that of reset. -/
theorem tooLongImageIsNotLoaded : Obligations.TooLongImageIsNotLoaded := by
  intro image s tooLong
  refine ⟨_, request_reset image s, ?_⟩
  rw [loadProgram_of_tooLong tooLong]
  exact ⟨rfl, rfl, fun a low => reset_read_font low, fun a high _ => reset_read_zero high, rfl⟩

end Sys2Proof.Proofs
end
